-- ==== Sys2Proof/Word.lean ====
section
/-! DEFINITION. The value types every file uses: bytes, 32-bit words, packets, planes and the
twelve-word state of the engine. Their arithmetic is in Machine/Algebra.lean. -/

namespace Sys2Proof

/-- A byte, an unsigned value 0..255 (R26). -/
abbrev Byte := BitVec 8

/-- A word, an unsigned 32-bit value; bit 0 is the least significant (R7). -/
abbrev Word := BitVec 32

/-- A packet, or any operand or result: a finite byte string, byte 0 first (R26, R40). -/
abbrev Packet := List Byte

/-- A plane: four lanes of one word each, `l0` at lane index 0 (R11, R57). -/
structure Plane where
  l0 : Word
  l1 : Word
  l2 : Word
  l3 : Word
  deriving DecidableEq, Repr

/-- The twelve state words S[0..11], held as the three planes A[0], A[1], A[2] of four lanes
(R10, R11). Word `4*y + x` is lane `x` of plane `y`: `a0` is the rate S[0..3], `a1` and `a2` are the
capacity S[4..11] (R12). -/
structure Sponge where
  a0 : Plane
  a1 : Plane
  a2 : Plane
  deriving DecidableEq, Repr

end Sys2Proof
end

