-- ==== Sys2Proof/Config.lean ====
section
/-! DEFINITION. What an engine instance fixes for its life (R6, R22), and the model's one free
value. The defaults of R6 are in Machine/Params.lean. -/

namespace Sys2Proof

/-- The direction of the cyclic lane shift, the open parameter LANE_DIR of R6 and R58. -/
inductive LaneDir where
  /-- LANE_DIR = +1: the lane at index x moves to index x + 1. -/
  | plus
  /-- LANE_DIR = -1: the lane at index x moves to index x - 1. -/
  | minus
  deriving DecidableEq, Repr

/-- The open parameters of R6. Fixed for the life of an instance, written by no command (R22). -/
structure Config where
  /-- RC, the twelve round constants. -/
  rc : Vector Word 12
  /-- LANE_DIR. -/
  laneDir : LaneDir
  /-- MAXLEN, the largest LEN a command may carry (R45). -/
  maxLen : Nat
  deriving DecidableEq, Repr

/-- FREE VALUE (DESIGN CHOICE, log entry 5). What the four OLEN bytes of a response hold when the
payload has 2^32 bytes or more and its length does not fit them: the spec states no value (R46, R47
with an ENCRYPT of 2^32 - 16 bytes or more). It may depend on the payload, and on nothing else that
the rules keep out of a response's contents (V by R19, the capacity by R106). It has no body, so
nothing can be proved about its value. -/
opaque Config.oversizeOlen : List Byte → Word

end Sys2Proof
end

