-- ==== Sys2Proof/Machine/Params.lean ====
section
/-! DEFINITION. The fixed parameters of R5 and the defaults of the open parameters of R6. -/

namespace Sys2Proof.Machine

/-- RATE: the rate has 16 bytes, state words 0 to 3; also the block and chunk size (R5, R33). -/
@[simp] abbrev rateLen : Nat := 16

/-- KEYLEN (R5). -/
@[simp] abbrev keyLen : Nat := 16

/-- NONCELEN (R5). -/
@[simp] abbrev nonceLen : Nat := 16

/-- TAGLEN (R5). -/
@[simp] abbrev tagLen : Nat := 16

/-- DOM_ABSORB, the domain byte of every absorb the AEAD session makes (R5, R80). -/
abbrev domAbsorb : Byte := 0x03

/-- DOM_SQUEEZE, the domain byte of every squeeze the AEAD session makes (R5, R80). -/
abbrev domSqueeze : Byte := 0x01

/-- THETA_R1 (R5). -/
abbrev thetaR1 : Nat := 5

/-- THETA_R2 (R5). -/
abbrev thetaR2 : Nat := 14

/-- THETA_LANES (R5). -/
abbrev thetaLanes : Nat := 1

/-- RHOW_A1_LANES (R5). -/
abbrev rhoWestA1Lanes : Nat := 1

/-- RHOW_A2_ROT (R5). -/
abbrev rhoWestA2Rot : Nat := 11

/-- RHOE_A1_ROT (R5). -/
abbrev rhoEastA1Rot : Nat := 1

/-- RHOE_A2_LANES (R5). -/
abbrev rhoEastA2Lanes : Nat := 2

/-- RHOE_A2_ROT (R5). -/
abbrev rhoEastA2Rot : Nat := 8

/-- DOM_SHIFT (R5). -/
abbrev domShift : Nat := 24

/-- The default of RC (R6; UNVERIFIED, log entry 4: the spec gives it from general knowledge). -/
def defaultRc : Vector Word 12 :=
  #v[0x00000058, 0x00000038, 0x000003C0, 0x000000D0, 0x00000120, 0x00000014,
     0x00000060, 0x0000002C, 0x00000380, 0x000000F0, 0x000001A0, 0x00000012]

/-- The default of LANE_DIR (R6; UNVERIFIED, log entry 4). -/
def defaultLaneDir : LaneDir := .plus

/-- The default of MAXLEN, the largest value the LEN field holds (R6). -/
def defaultMaxLen : Nat := 2 ^ 32 - 1

/-- The configuration of the instance that `State.reset` describes: every default of R6. -/
def defaultConfig : Config :=
  { rc := defaultRc, laneDir := defaultLaneDir, maxLen := defaultMaxLen }

end Sys2Proof.Machine
end

