-- ==== Sys2Proof/Syntax.lean ====
section
/-! DEFINITION. The command set (R41): six commands, one constructor of `Instr` each. -/

namespace Sys2Proof

/-- The six assigned opcodes (R44). -/
inductive Opcode where
  | dupInit
  | absorb
  | squeeze
  | aeadInit
  | encrypt
  | decrypt
  deriving DecidableEq, Repr

/-- A command, as a legal packet carries it (R42, R43): the free header fields and the payload.
`len` is the header's LEN and `payload` is what the packet really holds after the header. The two
may disagree. A command whose lengths are wrong is still a command, because the phase test comes
before the length test (R50, R100; log entry 7). -/
inductive Instr where
  /-- DUP_INIT: construct a Duplex Engine (R75). -/
  | dupInit (len : Word) (payload : List Byte)
  /-- ABSORB dom, data (R77). -/
  | absorb (dom : Byte) (len : Word) (payload : List Byte)
  /-- SQUEEZE dom, len (R79). -/
  | squeeze (dom : Byte) (len : Word) (payload : List Byte)
  /-- AEAD_INIT key, nonce, ad: payload = key ‖ nonce ‖ ad (R86). -/
  | aeadInit (len : Word) (payload : List Byte)
  /-- ENCRYPT pt (R88). -/
  | encrypt (len : Word) (payload : List Byte)
  /-- DECRYPT tag, ct: payload = tag ‖ ct (R90). -/
  | decrypt (len : Word) (payload : List Byte)
  deriving DecidableEq, Repr

/-- The opcode of a command. -/
def Instr.opcode : Instr → Opcode
  | .dupInit _ _ => .dupInit
  | .absorb _ _ _ => .absorb
  | .squeeze _ _ _ => .squeeze
  | .aeadInit _ _ => .aeadInit
  | .encrypt _ _ => .encrypt
  | .decrypt _ _ => .decrypt

/-- The DOM header byte of a command: the domain byte of ABSORB and SQUEEZE, 0x00 in every other
command (R42). -/
def Instr.dom : Instr → Byte
  | .dupInit _ _ => 0x00
  | .absorb d _ _ => d
  | .squeeze d _ _ => d
  | .aeadInit _ _ => 0x00
  | .encrypt _ _ => 0x00
  | .decrypt _ _ => 0x00

/-- The LEN header field of a command (R42). -/
def Instr.len : Instr → Word
  | .dupInit n _ => n
  | .absorb _ n _ => n
  | .squeeze _ n _ => n
  | .aeadInit n _ => n
  | .encrypt n _ => n
  | .decrypt n _ => n

/-- The payload of a command (R42). -/
def Instr.payload : Instr → List Byte
  | .dupInit _ p => p
  | .absorb _ _ p => p
  | .squeeze _ _ p => p
  | .aeadInit _ p => p
  | .encrypt _ p => p
  | .decrypt _ p => p

end Sys2Proof
end

