-- ==== Sys2Proof/Machine/State.lean ====
section
/-! DEFINITION. The state of one engine (R10 to R24), its reset value (R23), and the ways a step
can stop. -/

namespace Sys2Proof.Machine

/-- The values of the 3-bit register PHASE (R16). The reserved codes 6 and 7 are never held, so they
have no constructor (93_implementation_defined.md U5). Their numbering is `phaseCode` of
Machine/Flags.lean. -/
inductive Phase where
  /-- After reset; nothing has been constructed. -/
  | idle
  /-- A Duplex Engine exists and is driven by ABSORB and SQUEEZE. -/
  | duplex
  /-- An AEAD Session has been constructed; no message yet. -/
  | aeadInit
  /-- An ENCRYPT is executing; held only inside that command (R17). -/
  | aeadEnc
  /-- A DECRYPT is executing; held only inside that command (R17). -/
  | aeadDec
  /-- The session has produced its tag. -/
  | aeadFinal
  deriving DecidableEq, Repr

/-- The STATUS values of a response (R48). The reserved codes are never sent and have no
constructor. -/
inductive Status where
  | ok
  | errIllegal
  | errPhase
  | errInput
  deriving DecidableEq, Repr

/-- What the outside world does to the engine, one event at a time (R40, R113, R114). -/
inductive Input where
  /-- The host offers a command packet (R40). -/
  | packet (bytes : Packet)
  /-- The reset event, power-on among them (R113). -/
  | reset
  /-- The host offers a command packet, and a reset arrives while it executes (R114). -/
  | cutByReset (bytes : Packet)
  deriving DecidableEq, Repr

/-- The state of one engine instance with its two ends of the command interface.

`sponge`, `phase` and `v` are the whole architectural state (R10, R16, R19). `cfg` is the
instance's configuration, which the spec does not count as state (R22): it stands here so that
every statement about every state is a statement for every RC, LANE_DIR and MAXLEN; no step writes
it (log entry 4). `inbox` and `outbox` are the model's own fields for the transport of R40 and R123
(log entry 1). -/
structure State where
  /-- S[0..11] (R10). -/
  sponge : Sponge
  /-- PHASE (R16). -/
  phase : Phase
  /-- V (R19). -/
  v : Bool
  /-- RC, LANE_DIR and MAXLEN (R6, R22). -/
  cfg : Config
  /-- Packets and resets the engine has not yet taken, oldest first. -/
  inbox : List Input
  /-- Response packets the engine has sent, oldest first. -/
  outbox : List Packet
  deriving DecidableEq, Repr

/-- The engine has no fault: errors are responses (R96, R103), every command is total (R9, R95) and
none hangs (R129). So nothing raises one, and the type has no constructor (log entry 13). -/
inductive Fault where
  deriving DecidableEq, Repr

/-- Why a step has no meaning. -/
inductive Refusal where
  /-- Raised by a rejected arm of `exec` for an instruction with no meaning yet; no arm is rejected,
  so nothing raises it. Safe. -/
  | notModelled (mnemonic : String)
  deriving DecidableEq, Repr

/-- The plane of four zero words. -/
def zeroPlane : Plane := ⟨0, 0, 0, 0⟩

/-- Z, the all-zero state (R23, R75). -/
def zeroSponge : Sponge := ⟨zeroPlane, zeroPlane, zeroPlane⟩

/-- The machine right after reset (R23, R113): S all zero, PHASE = IDLE, V = 0; the default
configuration of R6; nothing offered and nothing sent. -/
def State.reset : State :=
  { sponge := zeroSponge, phase := .idle, v := false, cfg := defaultConfig,
    inbox := [], outbox := [] }

end Sys2Proof.Machine
end

