-- ==== Sys2Proof/Machine/Algebra.lean ====
section
/-! DEFINITION. Word and plane algebra (40_word_plane_algebra.md): total functions that write no
flag and cannot fail (R55). XOR and AND of words are those of `BitVec`. -/

namespace Sys2Proof.Machine

/-- Bit rotation left; a shift by the full width is never evaluated (R56). -/
def rotl32 (w : Word) (r : Nat) : Word :=
  let k := r % 32
  if k = 0 then w else (w <<< k) ||| (w >>> (32 - k))

/-- Lane `x` of a plane (R11). -/
def planeGet (p : Plane) (x : Fin 4) : Word :=
  match x with
  | 0 => p.l0
  | 1 => p.l1
  | 2 => p.l2
  | 3 => p.l3

/-- The plane with the given lanes. -/
def planeOf (f : Fin 4 → Word) : Plane := ⟨f 0, f 1, f 2, f 3⟩

/-- Lane-wise XOR (R57). -/
def planeXor (p q : Plane) : Plane :=
  ⟨p.l0 ^^^ q.l0, p.l1 ^^^ q.l1, p.l2 ^^^ q.l2, p.l3 ^^^ q.l3⟩

/-- Lane-wise AND (R57). -/
def planeAnd (p q : Plane) : Plane :=
  ⟨p.l0 &&& q.l0, p.l1 &&& q.l1, p.l2 &&& q.l2, p.l3 &&& q.l3⟩

/-- LANE_DIR as the number +1 or -1 (R6). -/
def laneSign : LaneDir → Int
  | .plus => 1
  | .minus => -1

/-- The source index `(x - LANE_DIR*t) mod 4` of a lane shift (R58); `mod` gives the representative
in 0..3 (R7). -/
def laneSource (d : LaneDir) (t : Nat) (x : Fin 4) : Fin 4 :=
  Fin.ofNat 4 (((x.val : Int) - laneSign d * (t : Int)) % 4).toNat

/-- Cyclic lane shift by `t` positions (R58). -/
def laneShift (d : LaneDir) (p : Plane) (t : Nat) : Plane :=
  planeOf fun x => planeGet p (laneSource d t x)

/-- Every lane rotated left by the same amount (R59). -/
def planeRotl (p : Plane) (r : Nat) : Plane :=
  ⟨rotl32 p.l0 r, rotl32 p.l1 r, rotl32 p.l2 r, rotl32 p.l3 r⟩

/-- The word with `dom` in bits 31:24 and zeros below (R61). -/
def domWord (dom : Byte) : Word := dom.setWidth 32 <<< domShift

/-- Byte-wise XOR of two byte strings of equal length (R62). -/
def xorBytes (a b : List Byte) : List Byte := List.zipWith (· ^^^ ·) a b

/-- Equality of two 16-byte strings, the engine's only comparison (R64). -/
def eq16 (a b : List Byte) : Bool := a == b

/-- Lane-wise XOR of two states, for statements about them (R65 uses `^` on states). -/
def spongeXor (s t : Sponge) : Sponge :=
  ⟨planeXor s.a0 t.a0, planeXor s.a1 t.a1, planeXor s.a2 t.a2⟩

/-- A[y] (R11). -/
def spongePlane (s : Sponge) (y : Fin 3) : Plane :=
  match y with
  | 0 => s.a0
  | 1 => s.a1
  | 2 => s.a2

/-- S[i], which is lane `i mod 4` of plane `i div 4` (R11). -/
def spongeWord (s : Sponge) (i : Fin 12) : Word :=
  planeGet (spongePlane s (Fin.ofNat 3 (i.val / 4))) (Fin.ofNat 4 (i.val % 4))

end Sys2Proof.Machine
end

