-- ==== Sys2Proof/Machine/Flags.lean ====
section
/-! DEFINITION. The control register PHASE and the flag V: their codes, which phase accepts which
command, and the verdict DECRYPT writes (R16, R18, R19). -/

namespace Sys2Proof.Machine

/-- The 3-bit code of PHASE (R16). -/
def phaseCode : Phase → BitVec 3
  | .idle => 0
  | .duplex => 1
  | .aeadInit => 2
  | .aeadEnc => 3
  | .aeadDec => 4
  | .aeadFinal => 5

/-- PHASE as a response header shows it: bits 2:0, bits 7:3 zero (R46). -/
def phaseByte (p : Phase) : Byte := (phaseCode p).setWidth 8

/-- V as a response header shows it: bit 0, bits 7:1 zero (R46). -/
def vByte (v : Bool) : Byte := if v then 1 else 0

/-- The STATUS byte (R48). -/
def statusByte : Status → Byte
  | .ok => 0x00
  | .errIllegal => 0x01
  | .errPhase => 0x02
  | .errInput => 0x03

/-- Which phase accepts which command (R18). In the two transient phases, which no command finds,
the words of R98 decide: ABSORB and SQUEEZE need DUPLEX, ENCRYPT and DECRYPT need AEAD_INIT
(log entry 6). -/
def accepts (o : Opcode) (p : Phase) : Bool :=
  match o with
  | .dupInit => true
  | .absorb => p == .duplex
  | .squeeze => p == .duplex
  | .aeadInit => true
  | .encrypt => p == .aeadInit
  | .decrypt => p == .aeadInit

/-- The value DECRYPT writes to V: whether the computed tag is the supplied one (R19, R90). -/
def verdict (computed supplied : List Byte) : Bool := eq16 computed supplied

end Sys2Proof.Machine
end

