-- ==== Sys2Proof/WellFormed.lean ====
section
/-! DEFINITION. When the lengths of a command are the ones its row of R43 requires. (The bound
MAXLEN of R45 belongs to an instance; the engine's own test is `inputOk` of Machine/Operands.lean.) -/

namespace Sys2Proof

/-- R43, column "required". -/
def Instr.wellFormed : Instr → Bool
  | .dupInit len payload => len == 0 && payload.isEmpty
  | .absorb _ len payload => payload.length == len.toNat
  | .squeeze _ _ payload => payload.isEmpty
  | .aeadInit len payload => decide (32 ≤ len.toNat) && payload.length == len.toNat
  | .encrypt len payload => payload.length == len.toNat
  | .decrypt len payload => decide (16 ≤ len.toNat) && payload.length == len.toNat

end Sys2Proof
end

