-- ==== Sys2Proof/Decode.lean ====
section
/-! DEFINITION. The command packet format (R42 to R45, R48, R49, R54): the decoder, total on any
bytes and rejecting by name, then the encoder, then the opcode table's own words (R44). -/

namespace Sys2Proof

/-- `le32(b0, b1, b2, b3)`: a word from four bytes, first byte least significant (R28). -/
def le32 (b0 b1 b2 b3 : Byte) : Word :=
  b0.setWidth 32 ||| (b1.setWidth 32 <<< 8) ||| (b2.setWidth 32 <<< 16) ||| (b3.setWidth 32 <<< 24)

/-- The four bytes of a word, least significant first (R27, R54). -/
def wordBytes (w : Word) : List Byte :=
  [w.setWidth 8, (w >>> 8).setWidth 8, (w >>> 16).setWidth 8, (w >>> 24).setWidth 8]

/-- The OPC byte of each opcode (R44). -/
def opcodeByte : Opcode → Byte
  | .dupInit => 0x10
  | .absorb => 0x11
  | .squeeze => 0x12
  | .aeadInit => 0x20
  | .encrypt => 0x21
  | .decrypt => 0x22

/-- The opcodes in the order of R44. -/
def opcodes : List Opcode := [.dupInit, .absorb, .squeeze, .aeadInit, .encrypt, .decrypt]

/-- The opcode an OPC byte selects; `none` for every unassigned value (R48). -/
def opcodeOfByte (b : Byte) : Option Opcode :=
  opcodes.find? fun o => opcodeByte o == b

/-- ABSORB and SQUEEZE are the commands with a free DOM field; in every other it must be 0x00
(R42, R48). -/
def takesDom : Opcode → Bool
  | .dupInit => false
  | .absorb => true
  | .squeeze => true
  | .aeadInit => false
  | .encrypt => false
  | .decrypt => false

/-- The command with the given opcode, DOM, LEN and payload. -/
def buildInstr (o : Opcode) (dom : Byte) (len : Word) (payload : List Byte) : Instr :=
  match o with
  | .dupInit => .dupInit len payload
  | .absorb => .absorb dom len payload
  | .squeeze => .squeeze dom len payload
  | .aeadInit => .aeadInit len payload
  | .encrypt => .encrypt len payload
  | .decrypt => .decrypt len payload

/-- Why a packet is not a command (R48, R97). Each ends with ERR_ILLEGAL. -/
inductive DecodeError where
  /-- The packet is shorter than the 8-byte header. -/
  | shortPacket
  /-- OPC is not one of the six values of R44. -/
  | unassignedOpcode (opc : Byte)
  /-- RSV, header bytes 2 and 3, is not zero. -/
  | reservedNotZero
  /-- DOM is not zero in a command other than ABSORB and SQUEEZE. -/
  | domainNotZero (dom : Byte)
  deriving DecidableEq, Repr

/-- The decoder (R42, R48): total, one command or one named reason for every byte string. -/
def decode : Packet → Except DecodeError Instr
  | opc :: dom :: r2 :: r3 :: n0 :: n1 :: n2 :: n3 :: payload =>
    match opcodeOfByte opc with
    | none => .error (.unassignedOpcode opc)
    | some o =>
      if r2 = 0 ∧ r3 = 0 then
        if takesDom o = true ∨ dom = 0 then .ok (buildInstr o dom (le32 n0 n1 n2 n3) payload)
        else .error (.domainNotZero dom)
      else .error .reservedNotZero
  | _ => .error .shortPacket

/-- The encoder (R42 to R44, R54): 8 header bytes, then the payload. -/
def encode (i : Instr) : Packet :=
  [opcodeByte i.opcode, i.dom, 0x00, 0x00] ++ wordBytes i.len ++ i.payload

/-- Header word W0 of a packet, `none` when it has fewer than four bytes (R42). -/
def headerW0 : Packet → Option Word
  | b0 :: b1 :: b2 :: b3 :: _ => some (le32 b0 b1 b2 b3)
  | _ => none

/-- The "W0 match" column of R44. -/
def rowMatch : Opcode → Word
  | .dupInit => 0x00000010
  | .absorb => 0x00000011
  | .squeeze => 0x00000012
  | .aeadInit => 0x00000020
  | .encrypt => 0x00000021
  | .decrypt => 0x00000022

/-- The "W0 mask" column of R44. -/
def rowMask : Opcode → Word
  | .dupInit => 0xFFFFFFFF
  | .absorb => 0xFFFF00FF
  | .squeeze => 0xFFFF00FF
  | .aeadInit => 0xFFFFFFFF
  | .encrypt => 0xFFFFFFFF
  | .decrypt => 0xFFFFFFFF

/-- A word W0 selects the row for which `W0 & mask = match` (R44). -/
def rowSelects (o : Opcode) (w0 : Word) : Bool := w0 &&& rowMask o == rowMatch o

/-- The packet whose bits are `w`, bit 0 the least significant bit of the first byte: the
`nbits / 8` bytes the table gives, then bytes 0x00 up to the 8-byte header, and no payload
(log entry 9). -/
def tableWordPacket (nbits w : Nat) : Packet :=
  (List.range (max 8 (nbits / 8))).map fun k => BitVec.ofNat 8 ((w % 2 ^ nbits) >>> (8 * k))

/-- The command the decoder reads from an opcode-table word. -/
def decodeTableWord (nbits w : Nat) : Option Instr :=
  match decode (tableWordPacket nbits w) with
  | .ok i => some i
  | .error _ => none

end Sys2Proof
end

