-- ==== Sys2Proof/Machine/Operands.lean ====
section
/-! DEFINITION. How operands are cut out of a payload (R43), how an operand is cut into blocks
(R33), and the length test of every command (R43, R45, R99). -/

namespace Sys2Proof.Machine

/-- key = payload[0:16] of AEAD_INIT. -/
def keyOf (payload : List Byte) : List Byte := payload.take keyLen

/-- nonce = payload[16:32] of AEAD_INIT. -/
def nonceOf (payload : List Byte) : List Byte := (payload.drop keyLen).take nonceLen

/-- ad = payload[32:LEN] of AEAD_INIT. -/
def adOf (payload : List Byte) : List Byte := payload.drop (keyLen + nonceLen)

/-- tag = payload[0:16] of DECRYPT. -/
def tagOf (payload : List Byte) : List Byte := payload.take tagLen

/-- ct = payload[16:LEN] of DECRYPT. -/
def ctOf (payload : List Byte) : List Byte := payload.drop tagLen

/-- Up to `fuel` blocks of 16 bytes from the front of a byte string; only the last can be shorter,
and none is empty. -/
def blocksFuel : Nat → List Byte → List (List Byte)
  | 0, _ => []
  | _ + 1, [] => []
  | fuel + 1, b :: bs => (b :: bs).take rateLen :: blocksFuel fuel ((b :: bs).drop rateLen)

/-- The blocks of an operand: block `k` is `data[16*k : min(16*k+16, len(data))]`, for k below
`ceil(len(data)/16)`; the empty operand has none (R33). -/
def blocks (data : List Byte) : List (List Byte) := blocksFuel data.length data

/-- The length test of a command: the "required" column of R43, and `LEN <= MAXLEN` (R45, R99). -/
def inputOk (cfg : Config) (i : Instr) : Bool :=
  decide (i.len.toNat ≤ cfg.maxLen) &&
  match i with
  | .dupInit len payload => len == 0 && payload.isEmpty
  | .absorb _ len payload => payload.length == len.toNat
  | .squeeze _ _ payload => payload.isEmpty
  | .aeadInit len payload => decide (keyLen + nonceLen ≤ len.toNat) && payload.length == len.toNat
  | .encrypt len payload => payload.length == len.toNat
  | .decrypt len payload => decide (tagLen ≤ len.toNat) && payload.length == len.toNat

end Sys2Proof.Machine
end

