-- ==== Sys2Proof/Machine/Ops.lean ====
section
/-! DEFINITION. The shared operations: the rate window (20_memory.md), writing one field of the
state, sending a response (R46), refusing a command (R96), the check order of a command (R50), the
reset event (R113) and taking the next input. -/

namespace Sys2Proof.Machine

/-! ### The rate window -/

/-- The 16 bytes of a plane, byte 0 first: little-endian words (R27). -/
def planeBytes (p : Plane) : List Byte :=
  wordBytes p.l0 ++ wordBytes p.l1 ++ wordBytes p.l2 ++ wordBytes p.l3

/-- The 16 rate bytes, the bytes of S[0..3] (R27). -/
def rateBytes (s : Sponge) : List Byte := planeBytes s.a0

/-- Word `k` of a block, every missing byte taken as 0x00 (R28). -/
def blockWord (blk : List Byte) (k : Nat) : Word :=
  le32 (blk.getD (4 * k) 0) (blk.getD (4 * k + 1) 0) (blk.getD (4 * k + 2) 0) (blk.getD (4 * k + 3) 0)

/-- The four words of a block of at most 16 bytes (R28). -/
def blockPlane (blk : List Byte) : Plane :=
  ⟨blockWord blk 0, blockWord blk 1, blockWord blk 2, blockWord blk 3⟩

/-- XOR a plane into the rate words. -/
def xorRate (p : Plane) (s : Sponge) : Sponge := { s with a0 := planeXor s.a0 p }

/-- `RateXor(blk)`: XOR the words of a block of at most 16 bytes into S[0..3] (R29, R28). -/
def rateXor (blk : List Byte) (s : Sponge) : Sponge := xorRate (blockPlane blk) s

/-- `RateRead(n)`: the first `n` bytes of the rate, `n <= 16` (R30). -/
def rateRead (s : Sponge) (n : Nat) : List Byte := (rateBytes s).take n

/-- The plane with word `w` in lane `k` and zeros elsewhere; all zero when `k` is no lane. -/
def laneMask (k : Nat) (w : Word) : Plane :=
  match k with
  | 0 => ⟨w, 0, 0, 0⟩
  | 1 => ⟨0, w, 0, 0⟩
  | 2 => ⟨0, 0, w, 0⟩
  | 3 => ⟨0, 0, 0, w⟩
  | _ => zeroPlane

/-- The mask of `PadXor(m)`: bit 0 of rate byte `m` (R31). -/
def padMask (m : Nat) : Plane := laneMask (m / 4) (1 <<< (8 * (m % 4)))

/-- The mask of `DomXor(dom)`: the domain byte in bits 31:24 of word 3 (R32). -/
def domMask (dom : Byte) : Plane := laneMask 3 (domWord dom)

/-- `PadXor(m)`: flip bit 0 of rate byte `m`, for 1 <= m <= 15 (R31). -/
def padXor (m : Nat) (s : Sponge) : Sponge := xorRate (padMask m) s

/-- `DomXor(dom)`: XOR the domain byte into bits 31:24 of S[3] (R32). -/
def domXor (dom : Byte) (s : Sponge) : Sponge := xorRate (domMask dom) s

/-! ### Writing one field -/

/-- Write S[0..11]. -/
def setSponge (x : Sponge) (s : State) : State := { s with sponge := x }

/-- Write PHASE. -/
def setPhase (p : Phase) (s : State) : State := { s with phase := p }

/-- Write V. -/
def setV (b : Bool) (s : State) : State := { s with v := b }

/-- Send one response packet. -/
def send (r : Packet) (s : State) : State := { s with outbox := s.outbox ++ [r] }

/-- Replace the inputs not yet taken. -/
def setInbox (l : List Input) (s : State) : State := { s with inbox := l }

/-- The host offers a packet; it is held after those offered before (R123). -/
def offer (p : Packet) (s : State) : State := { s with inbox := s.inbox ++ [.packet p] }

/-! ### Responses and refusals -/

/-- Response header word Q1 = OLEN, the number of payload bytes (R46). A number the four bytes cannot
hold leaves a free value (log entry 5). -/
def headerQ1 (payload : List Byte) : Word :=
  if payload.length < 2 ^ 32 then BitVec.ofNat 32 payload.length else Config.oversizeOlen payload

/-- The response packet: 8 header bytes, then the payload (R46, R54). -/
def responsePacket (st : Status) (p : Phase) (v : Bool) (payload : List Byte) : Packet :=
  [statusByte st, phaseByte p, vByte v, 0x00] ++ wordBytes (headerQ1 payload) ++ payload

/-- `respond(status, payload)`: send one response, with PHASE and V as they stand after the command
(R46). -/
def respond (st : Status) (payload : List Byte) (s : State) : State :=
  send (responsePacket st s.phase s.v payload) s

/-- TAKING AN ERROR: `respond(ERR_x, "")` and nothing else. S, PHASE and V keep their values, no
permutation runs and no output byte is produced (R96). It takes the place of trap entry, which the
engine does not have (R103); there is nothing to return from (R104). -/
def respondError (st : Status) (s : State) : State := respond st [] s

/-- One legal command, in the order of R50 and R100: the phase test (R18), else ERR_PHASE; the
length tests (R43, R45), else ERR_INPUT; then the command's own effect and output, which end with
`respond(OK, payload)`. -/
def runCommand (i : Instr) (effect : State → State × List Byte) (s : State) :
    Host.Outcome State Fault Refusal :=
  if accepts i.opcode s.phase then
    if inputOk s.cfg i then
      let r := effect s
      .next (respond .ok r.2 r.1)
    else .next (respondError .errInput s)
  else .next (respondError .errPhase s)

/-! ### Inputs -/

/-- The reset event: S, PHASE and V take their reset values, and nothing else happens (R23, R113). -/
def applyReset (s : State) : State := setV false (setPhase .idle (setSponge zeroSponge s))

/-- The next input, and the state in which the engine has taken it; `none` while nothing is
offered. -/
def takeInput (s : State) : Option (Input × State) :=
  match s.inbox with
  | [] => none
  | x :: rest => some (x, setInbox rest s)

end Sys2Proof.Machine
end

