-- ==== Sys2Proof/Machine/Permutation.lean ====
section
/-! DEFINITION. The permutation core (41_permutation.md): five step mappings, the round and the
12-round function. It is total and not a bijection (R70; 90_conflicts.md C1). -/

namespace Sys2Proof.Machine

/-- The parity plane `A[0] ^ A[1] ^ A[2]` (R65). -/
def parity (s : Sponge) : Plane := planeXor (planeXor s.a0 s.a1) s.a2

/-- The plane E that theta XORs into all three planes, from the parity plane (R65). -/
def thetaEffect (d : LaneDir) (p : Plane) : Plane :=
  let q := laneShift d p thetaLanes
  planeXor (planeRotl q thetaR1) (planeRotl q thetaR2)

/-- theta (R65). -/
def theta (d : LaneDir) (s : Sponge) : Sponge :=
  let e := thetaEffect d (parity s)
  ⟨planeXor s.a0 e, planeXor s.a1 e, planeXor s.a2 e⟩

/-- rho-west (R66). -/
def rhoWest (d : LaneDir) (s : Sponge) : Sponge :=
  ⟨s.a0, laneShift d s.a1 rhoWestA1Lanes, planeRotl s.a2 rhoWestA2Rot⟩

/-- add-round-constant, with the constant itself as argument: XOR it into lane 0 of plane 0
(R67). -/
def addRoundConstant (c : Word) (s : Sponge) : Sponge :=
  { s with a0 := { s.a0 with l0 := s.a0.l0 ^^^ c } }

/-- chi: three plain ANDs of the old planes, and no complement (R68). -/
def chi (s : Sponge) : Sponge :=
  ⟨planeXor s.a0 (planeAnd s.a1 s.a2),
   planeXor s.a1 (planeAnd s.a2 s.a0),
   planeXor s.a2 (planeAnd s.a0 s.a1)⟩

/-- rho-east; it does not depend on LANE_DIR, because a shift by two of four lanes is the same both
ways (R69). -/
def rhoEast (d : LaneDir) (s : Sponge) : Sponge :=
  ⟨s.a0, planeRotl s.a1 rhoEastA1Rot, planeRotl (laneShift d s.a2 rhoEastA2Lanes) rhoEastA2Rot⟩

/-- Round `i`: theta, rho-west, add-round-constant with RC[i], chi, rho-east (R71, R73). -/
def roundFn (cfg : Config) (s : Sponge) (i : Fin 12) : Sponge :=
  rhoEast cfg.laneDir
    (chi (addRoundConstant (cfg.rc.get i) (rhoWest cfg.laneDir (theta cfg.laneDir s))))

/-- The round indices in execution order (R72, R73). -/
def roundIndices : List (Fin 12) := [0, 1, 2, 3, 4, 5, 6, 7, 8, 9, 10, 11]

/-- permute: twelve rounds, i ascending from 0 to 11 (R72). -/
def permute (cfg : Config) (s : Sponge) : Sponge := roundIndices.foldl (roundFn cfg) s

end Sys2Proof.Machine
end

