-- ==== Sys2Proof/Machine/Duplex.lean ====
section
/-! DEFINITION. The duplex engine (42_duplex.md): the functions absorb and squeeze, and the commands
DUP_INIT, ABSORB and SQUEEZE. -/

namespace Sys2Proof.Machine

/-- One block of absorb before its permute: RateXor, then PadXor if it is shorter than 16 bytes, then
DomXor (R76). -/
def injectBlock (dom : Byte) (s : Sponge) (blk : List Byte) : Sponge :=
  let t := rateXor blk s
  domXor dom (if blk.length < rateLen then padXor blk.length t else t)

/-- One block of absorb: inject it, then permute (R76). -/
def absorbBlock (cfg : Config) (dom : Byte) (s : Sponge) (blk : List Byte) : Sponge :=
  permute cfg (injectBlock dom s blk)

/-- The function absorb (R76). The empty operand is one DomXor and one permute, with no padding bit
(90_conflicts.md C3). -/
def absorb (cfg : Config) (s : Sponge) (data : List Byte) (dom : Byte) : Sponge :=
  if data.isEmpty then permute cfg (domXor dom s)
  else (blocks data).foldl (absorbBlock cfg dom) s

/-- Squeeze with exactly `more` blocks after the first: DomXor and permute stand between two blocks
and nowhere else (R78). -/
def squeezeBlocks (cfg : Config) (dom : Byte) : Nat → Sponge → Nat → Sponge × List Byte
  | 0, s, len => (s, rateRead s len)
  | more + 1, s, len =>
    let r := squeezeBlocks cfg dom more (permute cfg (domXor dom s)) (len - rateLen)
    (r.1, rateRead s rateLen ++ r.2)

/-- The function squeeze (R78): `ceil(len/16) - 1` blocks follow the first, none when `len <= 16`. -/
def squeeze (cfg : Config) (s : Sponge) (len : Nat) (dom : Byte) : Sponge × List Byte :=
  squeezeBlocks cfg dom ((len - 1) / rateLen) s len

/-- The effect and output of an accepted DUP_INIT (R75): no permutation runs. -/
def effectDupInit (s : State) : State × List Byte :=
  (setV false (setPhase .duplex (setSponge zeroSponge s)), [])

/-- The effect and output of an accepted ABSORB (R77). -/
def effectAbsorb (dom : Byte) (data : List Byte) (s : State) : State × List Byte :=
  (setSponge (absorb s.cfg s.sponge data dom) s, [])

/-- The effect and output of an accepted SQUEEZE (R79). -/
def effectSqueeze (dom : Byte) (len : Nat) (s : State) : State × List Byte :=
  let r := squeeze s.cfg s.sponge len dom
  (setSponge r.1 s, r.2)

/-- DUP_INIT (R75). -/
def execDupInit (len : Word) (payload : List Byte) (s : State) : Host.Outcome State Fault Refusal :=
  runCommand (.dupInit len payload) effectDupInit s

/-- ABSORB (R77). -/
def execAbsorb (dom : Byte) (len : Word) (payload : List Byte) (s : State) :
    Host.Outcome State Fault Refusal :=
  runCommand (.absorb dom len payload) (effectAbsorb dom payload) s

/-- SQUEEZE (R79). -/
def execSqueeze (dom : Byte) (len : Word) (payload : List Byte) (s : State) :
    Host.Outcome State Fault Refusal :=
  runCommand (.squeeze dom len payload) (effectSqueeze dom len.toNat) s

end Sys2Proof.Machine
end

