-- ==== Sys2Proof/Machine/Aead.lean ====
section
/-! DEFINITION. The AEAD session (43_aead_session.md): construction, encrypt and decrypt, and the
commands AEAD_INIT, ENCRYPT and DECRYPT. -/

namespace Sys2Proof.Machine

/-- The function aead_construct (R85): an empty `ad` is not absorbed at all. -/
def aeadConstruct (cfg : Config) (key nonce ad : List Byte) : Sponge :=
  let s := absorb cfg zeroSponge (key ++ nonce) domAbsorb
  if ad.isEmpty then s else absorb cfg s ad domAbsorb

/-- The loop of aead_encrypt over the plaintext chunks (R87): squeeze a keystream chunk, XOR, absorb
the plaintext chunk. -/
def encryptChunks (cfg : Config) : List (List Byte) → Sponge → Sponge × List Byte
  | [], s => (s, [])
  | p :: ps, s =>
    let ks := squeeze cfg s p.length domSqueeze
    let r := encryptChunks cfg ps (absorb cfg ks.1 p domAbsorb)
    (r.1, xorBytes p ks.2 ++ r.2)

/-- The function aead_encrypt (R87): the new state, the ciphertext and the tag. -/
def aeadEncrypt (cfg : Config) (s : Sponge) (pt : List Byte) : Sponge × List Byte × List Byte :=
  let r := encryptChunks cfg (blocks pt) s
  let t := squeeze cfg r.1 tagLen domSqueeze
  (t.1, r.2, t.2)

/-- The loop of aead_decrypt over the ciphertext chunks (R89): squeeze a keystream chunk, XOR, absorb
the recovered plaintext chunk. -/
def decryptChunks (cfg : Config) : List (List Byte) → Sponge → Sponge × List Byte
  | [], s => (s, [])
  | c :: cs, s =>
    let ks := squeeze cfg s c.length domSqueeze
    let p := xorBytes c ks.2
    let r := decryptChunks cfg cs (absorb cfg ks.1 p domAbsorb)
    (r.1, p ++ r.2)

/-- The function aead_decrypt (R89): the new state, the recovered plaintext, whatever the verdict,
and the verdict. -/
def aeadDecrypt (cfg : Config) (s : Sponge) (ct tag : List Byte) : Sponge × List Byte × Bool :=
  let r := decryptChunks cfg (blocks ct) s
  let t := squeeze cfg r.1 tagLen domSqueeze
  (t.1, r.2, verdict t.2 tag)

/-- The effect and output of an accepted AEAD_INIT (R86). -/
def effectAeadInit (key nonce ad : List Byte) (s : State) : State × List Byte :=
  (setV false (setPhase .aeadInit (setSponge (aeadConstruct s.cfg key nonce ad) s)), [])

/-- The effect and output of an accepted ENCRYPT (R88). PHASE passes through AEAD_ENC inside the
command (R17). The output is ct ‖ tag (R47). -/
def effectEncrypt (pt : List Byte) (s : State) : State × List Byte :=
  let s1 := setPhase .aeadEnc s
  let r := aeadEncrypt s1.cfg s1.sponge pt
  (setPhase .aeadFinal (setSponge r.1 s1), r.2.1 ++ r.2.2)

/-- The effect and output of an accepted DECRYPT (R90). PHASE passes through AEAD_DEC inside the
command (R17). The output is the plaintext also when V = 0 (R101). -/
def effectDecrypt (tag ct : List Byte) (s : State) : State × List Byte :=
  let s1 := setPhase .aeadDec s
  let r := aeadDecrypt s1.cfg s1.sponge ct tag
  (setPhase .aeadFinal (setV r.2.2 (setSponge r.1 s1)), r.2.1)

/-- AEAD_INIT (R86). -/
def execAeadInit (len : Word) (payload : List Byte) (s : State) : Host.Outcome State Fault Refusal :=
  runCommand (.aeadInit len payload)
    (effectAeadInit (keyOf payload) (nonceOf payload) (adOf payload)) s

/-- ENCRYPT (R88). -/
def execEncrypt (len : Word) (payload : List Byte) (s : State) : Host.Outcome State Fault Refusal :=
  runCommand (.encrypt len payload) (effectEncrypt payload) s

/-- DECRYPT (R90). -/
def execDecrypt (len : Word) (payload : List Byte) (s : State) : Host.Outcome State Fault Refusal :=
  runCommand (.decrypt len payload) (effectDecrypt (tagOf payload) (ctOf payload)) s

end Sys2Proof.Machine
end

