-- ==== Sys2Proof/Machine/Dispatch.lean ====
section
/-! DEFINITION. Which meaning each command has: one direct call per constructor of `Instr`. -/

namespace Sys2Proof.Machine

def exec (i : Instr) (s : State) : Host.Outcome State Fault Refusal :=
  match i with
  | .dupInit len payload => Sys2Proof.Machine.execDupInit len payload s
  | .absorb dom len payload => Sys2Proof.Machine.execAbsorb dom len payload s
  | .squeeze dom len payload => Sys2Proof.Machine.execSqueeze dom len payload s
  | .aeadInit len payload => Sys2Proof.Machine.execAeadInit len payload s
  | .encrypt len payload => Sys2Proof.Machine.execEncrypt len payload s
  | .decrypt len payload => Sys2Proof.Machine.execDecrypt len payload s

end Sys2Proof.Machine
end

