-- ==== Sys2Proof/Machine/Step.lean ====
section
/-! DEFINITION. One step: take the next input and carry it out whole (R36, R50). -/

namespace Sys2Proof.Machine

/-- One command packet: the legality test (R48), else ERR_ILLEGAL, then the command (R50). -/
def runPacket (p : Packet) (s : State) : Host.Outcome State Fault Refusal :=
  match decode p with
  | .error _ => .next (respondError .errIllegal s)
  | .ok i => exec i s

/-- One step. With nothing offered the engine waits, and S, PHASE and V are held (R111). A packet is
executed to its response before the next input is taken (R36, R123). A reset, alone or during a
command, leaves the reset values and sends no response (R113, R114). -/
def step (s : State) : Host.Outcome State Fault Refusal :=
  match takeInput s with
  | none => .next s
  | some (.packet p, t) => runPacket p t
  | some (.reset, t) => .next (applyReset t)
  | some (.cutByReset _, t) => .next (applyReset t)

/-- The state in which the next input the engine takes is the packet of an opcode-table word. The
host's offer is how a program comes to the engine; the state holds no program (R15; log entry 8). -/
def State.withFetchWord (s : State) (nbits w : Nat) : State :=
  setInbox (.packet (tableWordPacket nbits w) :: s.inbox) s

end Sys2Proof.Machine
end

