-- ==== Sys2Proof/Machine/System.lean ====
section
/-! DEFINITION. Several engines side by side (R39, R109): each instance has its own state, and a
schedule says which instance steps next. -/

namespace Sys2Proof.Machine

/-- Instance `k` takes one step and every other instance stays as it is; nothing happens when there
is no instance `k`, or when it stops. -/
def systemStep (es : List State) (k : Nat) : List State :=
  match es[k]? with
  | none => es
  | some s =>
    match step s with
    | .next t => es.set k t
    | .fault _ => es
    | .refused _ => es

/-- The instances after a schedule: any interleaving of their steps (R39). -/
def systemRun (es : List State) (schedule : List Nat) : List State := schedule.foldl systemStep es

end Sys2Proof.Machine
end

