-- ==== Sys2Proof/Safety.lean ====
section
/-! DEFINITION. The terms claims are stated in: the fields of a response packet, what every response
looks like, the invariant of a run, and how the state words change. -/

namespace Sys2Proof

open Sys2Proof.Machine

/-- STATUS of a response packet, r[0] (R46). -/
def respStatus (r : Packet) : Byte := r.getD 0 0

/-- Byte r[1] of a response packet, PHASE (R46). -/
def respPhase (r : Packet) : Byte := r.getD 1 0

/-- Byte r[2] of a response packet, V (R46). -/
def respV (r : Packet) : Byte := r.getD 2 0

/-- OLEN of a response packet, r[4..7] (R46). -/
def respOlen (r : Packet) : Word := le32 (r.getD 4 0) (r.getD 5 0) (r.getD 6 0) (r.getD 7 0)

/-- The payload of a response packet (R46). -/
def respPayload (r : Packet) : List Byte := r.drop 8

/-- The phases held between commands (R16, last column). -/
def heldPhase : Phase → Bool
  | .idle => true
  | .duplex => true
  | .aeadInit => true
  | .aeadEnc => false
  | .aeadDec => false
  | .aeadFinal => true

/-- What every response packet is (R46, R48): a full header, an assigned STATUS, the code of a held
phase, V a single bit, r[3] zero, an empty payload on any status but OK, and OLEN the number of
payload bytes whenever 32 bits can hold it. -/
def responseWellFormed (r : Packet) : Bool :=
  decide (8 ≤ r.length) &&
  decide (respStatus r ≤ 3) &&
  (respPhase r == 0 || respPhase r == 1 || respPhase r == 2 || respPhase r == 5) &&
  decide (respV r ≤ 1) &&
  r.getD 3 0 == 0 &&
  (respStatus r == 0 || (respPayload r).isEmpty) &&
  (decide (2 ^ 32 ≤ (respPayload r).length) || (respOlen r).toNat == (respPayload r).length)

/-- The invariant of a run: PHASE is a held phase (R16, R17); in IDLE nothing has been constructed,
so S is the zero state (R23, R24); V is set only in a finalized session (R17, R19); and every
response sent is a well-formed one (R46, R48). -/
abbrev EngineInv (s : State) : Prop :=
  heldPhase s.phase = true ∧
  (s.phase = .idle → s.sponge = zeroSponge) ∧
  (s.v = true → s.phase = .aeadFinal) ∧
  ∀ r ∈ s.outbox, responseWellFormed r = true

/-- XOR a mask into the rate and permute, once for each mask: the only way the state words change
but for the zeroing of construction and reset (R12, R24). -/
def rateChain (cfg : Config) (masks : List Plane) (s : Sponge) : Sponge :=
  masks.foldl (fun s m => permute cfg (xorRate m s)) s

/-- The permute calls of an accepted command (R128). -/
def permuteCalls (i : Instr) : Nat :=
  match i with
  | .dupInit _ _ => 0
  | .absorb _ _ p => max 1 ((p.length + 15) / 16)
  | .squeeze _ len _ => (len.toNat + 15) / 16 - 1
  | .aeadInit _ p => 2 + (p.length - 32 + 15) / 16
  | .encrypt _ p => (p.length + 15) / 16
  | .decrypt _ p => (p.length - 16 + 15) / 16

/-- The status a packet ends with, in the order of R50 and R100. -/
def statusOf (p : Packet) (s : State) : Status :=
  match decode p with
  | .error _ => .errIllegal
  | .ok i =>
    if accepts i.opcode s.phase = false then .errPhase
    else if inputOk s.cfg i = false then .errInput
    else .ok

/-- What the host may treat as authenticated (R112, R120): the payload of a response with STATUS = OK,
PHASE = AEAD_FINAL and V = 1. -/
def trusted (r : Packet) : Bool := respStatus r == 0 && respPhase r == 5 && respV r == 1

/-- The outcome of a command or packet that ends in an error: one response with no payload is sent,
and nothing else changes (R96). -/
abbrev errorOutcome (st : Status) (s : State) : Host.Outcome State Fault Refusal :=
  .next { s with outbox := s.outbox ++ [responsePacket st s.phase s.v []] }

/-- The commands that construct a new Duplex Engine, from twelve zero words (R24). -/
def constructs : Opcode → Bool
  | .dupInit => true
  | .absorb => false
  | .squeeze => false
  | .aeadInit => true
  | .encrypt => false
  | .decrypt => false

/-- An input that begins anew: a reset, or a packet of an accepted DUP_INIT or AEAD_INIT (R24). -/
def beginsAnew (cfg : Config) : Input → Bool
  | .packet p =>
    match decode p with
    | .error _ => false
    | .ok i => constructs i.opcode && inputOk cfg i
  | .reset => true
  | .cutByReset _ => true

/-- Whether an input is a packet that will be answered (R40, R114). -/
def isAnswered : Input → Bool
  | .packet _ => true
  | .reset => false
  | .cutByReset _ => false

/-- The command that the next step carries out: the oldest input is its packet, its phase is accepted
and its lengths are right (R50). `none` when the next step waits, refuses a packet or takes a reset. -/
def acceptedCommand (s : State) : Option Instr :=
  match s.inbox with
  | .packet p :: _ =>
    match decode p with
    | .error _ => none
    | .ok i => if accepts i.opcode s.phase && inputOk s.cfg i then some i else none
  | .reset :: _ => none
  | .cutByReset _ :: _ => none
  | [] => none

/-- The next step takes a reset, alone or during a command (R113, R114). -/
def takesReset (s : State) : Bool :=
  match s.inbox with
  | .packet _ :: _ => false
  | .reset :: _ => true
  | .cutByReset _ :: _ => true
  | [] => false

/-- A plane with its lanes at x moved to -x mod 4 (95_test_vectors.md section 3.4). -/
def reflectPlane (p : Plane) : Plane := ⟨p.l0, p.l3, p.l2, p.l1⟩

/-- A state with every plane reflected. -/
def reflectSponge (s : Sponge) : Sponge :=
  ⟨reflectPlane s.a0, reflectPlane s.a1, reflectPlane s.a2⟩

/-- F, the state with every bit set (95_test_vectors.md). -/
def onesSponge : Sponge :=
  let p : Plane := ⟨0xFFFFFFFF, 0xFFFFFFFF, 0xFFFFFFFF, 0xFFFFFFFF⟩
  ⟨p, p, p⟩

/-- The operand X followed by 0x01 and zeros up to the next multiple of 16 (R83). -/
def padded (x : List Byte) : List Byte := x ++ 0x01 :: List.replicate (15 - x.length % 16) 0x00

/-- The packet of `AEAD_INIT key, nonce, ad` (R43). -/
def aeadInitPacket (key nonce ad : List Byte) : Packet :=
  encode (.aeadInit (BitVec.ofNat 32 (32 + ad.length)) (key ++ nonce ++ ad))

/-- The packet of `ENCRYPT pt` (R43). -/
def encryptPacket (pt : List Byte) : Packet := encode (.encrypt (BitVec.ofNat 32 pt.length) pt)

/-- The packet of `DECRYPT tag, ct` (R43). -/
def decryptPacket (tag ct : List Byte) : Packet :=
  encode (.decrypt (BitVec.ofNat 32 (16 + ct.length)) (tag ++ ct))

/-- The packet of `DUP_INIT` (R43). -/
def dupInitPacket : Packet := encode (.dupInit 0 [])

/-- The packet of `ABSORB dom, data` (R43). -/
def absorbPacket (dom : Byte) (data : List Byte) : Packet :=
  encode (.absorb dom (BitVec.ofNat 32 data.length) data)

/-- The packet of `SQUEEZE dom, len` (R43). -/
def squeezePacket (dom : Byte) (len : Nat) : Packet :=
  encode (.squeeze dom (BitVec.ofNat 32 len) [])

/-- The packets that replay a message by hand in DUPLEX (R52, R87, R89): for each plaintext chunk squeeze
a keystream chunk as long and absorb the plaintext chunk, then squeeze the tag. -/
def replayPackets (chunks : List (List Byte)) : List Packet :=
  chunks.flatMap (fun c => [squeezePacket 0x01 c.length, absorbPacket 0x03 c]) ++
    [squeezePacket 0x01 16]

/-- The responses to `replayPackets` that carry the given keystream chunks and the given tag. -/
def replayResponses (v : Bool) (keystream : List (List Byte)) (tag : List Byte) : List Packet :=
  keystream.flatMap (fun k => [responsePacket .ok .duplex v k, responsePacket .ok .duplex v []]) ++
    [responsePacket .ok .duplex v tag]

end Sys2Proof
end

