-- ==== Sys2Proof/Certificates/Slice0/Obligations.lean ====
section
/-! DEFINITION. The statements for the provers. Each holds for every configuration: RC, LANE_DIR and
MAXLEN are the state's `cfg`, or an argument (R6; 92_eei_decisions.md D9, D10). A response is "sent"
when it is appended to `outbox`, and a packet is "offered" when it stands in `inbox`: the model's form
of the transport (log entry 1). -/

open Sys2Proof Sys2Proof.Machine

/-! ### Word and plane algebra -/

/-- R56. The rotation's definition; bit i goes to bit (i + r) mod 32; rotations compose, distribute
over XOR and AND, and are bijections. -/
def Obligations.RotateLeftMovesEachBit : Prop :=
  ∀ (w : Word) (r : Nat),
    rotl32 w r = (if r % 32 = 0 then w else (w <<< (r % 32)) ||| (w >>> (32 - r % 32))) ∧
    (∀ i, i < 32 → (rotl32 w r).getLsbD ((i + r) % 32) = w.getLsbD i) ∧
    (∀ q, rotl32 (rotl32 w r) q = rotl32 w (r + q)) ∧
    (∀ u, rotl32 (w ^^^ u) r = rotl32 w r ^^^ rotl32 u r) ∧
    (∀ u, rotl32 (w &&& u) r = rotl32 w r &&& rotl32 u r) ∧
    Function.Bijective (fun x => rotl32 x r)

/-- R57, R58, R59. XOR, AND and rotation act on each lane alone; a lane shift takes lane x from lane
(x - LANE_DIR*t) mod 4, and a shift by two is the same in both directions. -/
def Obligations.PlaneOperationsActByLane : Prop :=
  laneSign .plus = 1 ∧ laneSign .minus = -1 ∧
  ∀ (p q : Plane) (x : Fin 4) (r : Nat),
    planeGet (planeXor p q) x = planeGet p x ^^^ planeGet q x ∧
    planeGet (planeAnd p q) x = planeGet p x &&& planeGet q x ∧
    planeGet (planeRotl p r) x = rotl32 (planeGet p x) r ∧
    (∀ (d : LaneDir) (t : Nat) (y : Fin 4), ((x.val : Int) - laneSign d * (t : Int)) % 4 = y.val →
      planeGet (laneShift d p t) x = planeGet p y) ∧
    laneShift .plus p 1 = ⟨p.l3, p.l0, p.l1, p.l2⟩ ∧
    laneShift .minus p 1 = ⟨p.l1, p.l2, p.l3, p.l0⟩ ∧
    (∀ d, laneShift d p 2 = ⟨p.l2, p.l3, p.l0, p.l1⟩)

/-- 40_word_plane_algebra.md R60 (marked derived there): lane shift and lane rotation commute. -/
def Obligations.LaneShiftCommutesWithRotation : Prop :=
  ∀ (d : LaneDir) (p : Plane) (t r : Nat),
    planeRotl (laneShift d p t) r = laneShift d (planeRotl p r) t

/-- R62, R64, and R63's `xor_bytes(xor_bytes(a, k), k) = a`. The byte-wise XOR of two strings of equal
length, and the comparison of two 16-byte strings. -/
def Obligations.ByteStringsXorAndCompare : Prop :=
  (∀ a b : List Byte, a.length = b.length →
    (xorBytes a b).length = a.length ∧
    (∀ j, j < a.length → (xorBytes a b)[j]? = some (a.getD j 0 ^^^ b.getD j 0)) ∧
    xorBytes (xorBytes a b) b = a) ∧
  (∀ a b : List Byte, a.length = 16 → b.length = 16 →
    (eq16 a b = true ↔ ∀ j, j < 16 → a.getD j 0 = b.getD j 0))

/-! ### The permutation -/

/-- R65. Every lane of theta; theta fixes a state whose parity plane is zero, is linear over XOR,
leaves the XOR of two planes, and turns the parity P into P ^ E. -/
def Obligations.ThetaByLane : Prop :=
  (∀ (d : LaneDir) (s : Sponge) (y : Fin 3) (x z : Fin 4),
    ((x.val : Int) - laneSign d) % 4 = z.val →
    planeGet (spongePlane (theta d s) y) x =
      planeGet (spongePlane s y) x ^^^
        (rotl32 (planeGet s.a0 z ^^^ planeGet s.a1 z ^^^ planeGet s.a2 z) 5 ^^^
          rotl32 (planeGet s.a0 z ^^^ planeGet s.a1 z ^^^ planeGet s.a2 z) 14)) ∧
  (∀ (d : LaneDir) (s : Sponge), parity s = zeroPlane → theta d s = s) ∧
  (∀ (d : LaneDir) (s t : Sponge), theta d (spongeXor s t) = spongeXor (theta d s) (theta d t)) ∧
  (∀ (d : LaneDir) (s : Sponge),
    planeXor (theta d s).a0 (theta d s).a1 = planeXor s.a0 s.a1 ∧
    planeXor (theta d s).a1 (theta d s).a2 = planeXor s.a1 s.a2 ∧
    parity (theta d s) = planeXor (parity s) (thetaEffect d (parity s)))

/-- R66, R67, R69. Every lane of rho-west, add-round-constant and rho-east; the two rho steps are
bijections, rho-west fixes the all-zero and the all-ones state, add-round-constant is an involution and
does nothing when RC[i] = 0, and rho-east does not depend on LANE_DIR nor on the order of its shift and
its rotation. -/
def Obligations.LinearStepsByLane : Prop :=
  (∀ (d : LaneDir) (s : Sponge) (x z : Fin 4), ((x.val : Int) - laneSign d) % 4 = z.val →
    (rhoWest d s).a0 = s.a0 ∧
    planeGet (rhoWest d s).a1 x = planeGet s.a1 z ∧
    planeGet (rhoWest d s).a2 x = rotl32 (planeGet s.a2 x) 11) ∧
  (∀ d : LaneDir, Function.Bijective (rhoWest d) ∧
    rhoWest d zeroSponge = zeroSponge ∧ rhoWest d onesSponge = onesSponge) ∧
  (∀ (cfg : Config) (i : Fin 12) (s : Sponge),
    spongeWord (addRoundConstant (cfg.rc.get i) s) 0 = spongeWord s 0 ^^^ cfg.rc.get i ∧
    (∀ k : Fin 12, k ≠ 0 → spongeWord (addRoundConstant (cfg.rc.get i) s) k = spongeWord s k) ∧
    addRoundConstant (cfg.rc.get i) (addRoundConstant (cfg.rc.get i) s) = s ∧
    (cfg.rc.get i = 0 → addRoundConstant (cfg.rc.get i) s = s)) ∧
  (∀ (d : LaneDir) (s : Sponge) (x : Fin 4),
    (rhoEast d s).a0 = s.a0 ∧
    planeGet (rhoEast d s).a1 x = rotl32 (planeGet s.a1 x) 1 ∧
    planeGet (rhoEast d s).a2 x = rotl32 (planeGet s.a2 (x + 2)) 8 ∧
    (rhoEast d s).a2 = laneShift d (planeRotl s.a2 8) 2) ∧
  (∀ d : LaneDir, Function.Bijective (rhoEast d))

/-- R68. chi acts on each column of three bits alone, as the table of eight cases says, with no
complement; the all-zero state is a fixed point and the all-ones state goes to the all-zero state. -/
def Obligations.ChiByColumn : Prop :=
  (∀ (s : Sponge) (x : Fin 4) (i : Nat),
    let a := (planeGet s.a0 x).getLsbD i
    let b := (planeGet s.a1 x).getLsbD i
    let c := (planeGet s.a2 x).getLsbD i
    let new := ((planeGet (chi s).a0 x).getLsbD i, (planeGet (chi s).a1 x).getLsbD i,
      (planeGet (chi s).a2 x).getLsbD i)
    new = (a ^^ (b && c), b ^^ (c && a), c ^^ (a && b)) ∧
    ((a, b, c) = (false, false, false) → new = (false, false, false)) ∧
    ((a, b, c) = (false, false, true) → new = (false, false, true)) ∧
    ((a, b, c) = (false, true, false) → new = (false, true, false)) ∧
    ((a, b, c) = (true, false, false) → new = (true, false, false)) ∧
    ((a, b, c) = (false, true, true) → new = (true, true, true)) ∧
    ((a, b, c) = (true, false, true) → new = (true, true, true)) ∧
    ((a, b, c) = (true, true, false) → new = (true, true, true)) ∧
    ((a, b, c) = (true, true, true) → new = (false, false, false))) ∧
  chi zeroSponge = zeroSponge ∧ chi onesSponge = zeroSponge

/-- R71, R72, R73. A round is the five steps in order and round i uses RC[i]; permute is the twelve
rounds with i ascending from 0; and a round on the all-zero state leaves its constant in S[0] and
eleven zero words. -/
def Obligations.RoundsRunInOrder : Prop :=
  ∀ cfg : Config,
    (∀ (s : Sponge) (i : Fin 12), roundFn cfg s i =
      rhoEast cfg.laneDir
        (chi (addRoundConstant (cfg.rc.get i) (rhoWest cfg.laneDir (theta cfg.laneDir s))))) ∧
    (∀ f : Nat → Sponge, (∀ i : Fin 12, f (i.val + 1) = roundFn cfg (f i.val) i) →
      permute cfg (f 0) = f 12) ∧
    (∀ i : Fin 12,
      roundFn cfg zeroSponge i = ⟨⟨cfg.rc.get i, 0, 0, 0⟩, zeroPlane, zeroPlane⟩)

/-- 41_permutation.md R70 (marked derived there): chi, the round and the 12-round function are not
injective, whatever the configuration. -/
def Obligations.PermutationIsNotInjective : Prop :=
  ¬ Function.Injective chi ∧
  ∀ cfg : Config,
    (∀ i : Fin 12, ¬ Function.Injective (fun s => roundFn cfg s i)) ∧
    ¬ Function.Injective (permute cfg)

/-- 95_test_vectors.md section 3.4, which says it of the all-zero state: the two lane directions give
mirror images, because the lane reflection x to -x mod 4 exchanges them and RC touches lane 0 only.
Stated here for every state. -/
def Obligations.LaneDirectionsMirrorEachOther : Prop :=
  ∀ (cfg : Config) (s : Sponge),
    permute { cfg with laneDir := .minus } (reflectSponge s) =
      reflectSponge (permute { cfg with laneDir := .plus } s)

/-! ### The rate window -/

/-- R27, R28, R29, R30. Rate byte j is byte j mod 4 of S[j div 4]; RateXor changes rate byte j by byte j
of the block, is the XOR of the block's words, and leaves the rest; RateRead(n) returns the first n
rate bytes. -/
def Obligations.RateBytesReadAndXor : Prop :=
  (∀ b0 b1 b2 b3 : Byte, (le32 b0 b1 b2 b3).toNat =
    b0.toNat + 256 * b1.toNat + 65536 * b2.toNat + 16777216 * b3.toNat) ∧
  ∀ (s : Sponge) (blk : List Byte), blk.length ≤ 16 →
    (∀ j, j < 16 →
      (rateBytes s).getD j 0 =
        ((planeGet s.a0 (Fin.ofNat 4 (j / 4))) >>> (8 * (j % 4))).setWidth 8 ∧
      (rateBytes (rateXor blk s)).getD j 0 = (rateBytes s).getD j 0 ^^^ blk.getD j 0) ∧
    (∀ k : Fin 4, planeGet (rateXor blk s).a0 k = planeGet s.a0 k ^^^
      le32 (blk.getD (4 * k.val) 0) (blk.getD (4 * k.val + 1) 0) (blk.getD (4 * k.val + 2) 0)
        (blk.getD (4 * k.val + 3) 0)) ∧
    (rateXor blk s).a1 = s.a1 ∧ (rateXor blk s).a2 = s.a2 ∧
    (∀ n, n ≤ 16 → (rateRead s n).length = n ∧
      ∀ j, j < n → (rateRead s n)[j]? = some ((rateBytes s).getD j 0))

/-- R31, R32, R61. PadXor(m) XORs 0x01 into rate byte m, and DomXor(dom) XORs dom into rate byte 15,
that is `dom << 24` into S[3]; every other rate byte and the capacity are unchanged. -/
def Obligations.PaddingAndDomainTouchOneByte : Prop :=
  (∀ (s : Sponge) (m j : Nat), 1 ≤ m → m ≤ 15 → j < 16 →
    (rateBytes (padXor m s)).getD j 0 = (rateBytes s).getD j 0 ^^^ (if j = m then 0x01 else 0x00) ∧
    planeGet (padXor m s).a0 (Fin.ofNat 4 (m / 4)) =
      planeGet s.a0 (Fin.ofNat 4 (m / 4)) ^^^ (1 <<< (8 * (m % 4))) ∧
    (padXor m s).a1 = s.a1 ∧ (padXor m s).a2 = s.a2) ∧
  (∀ (s : Sponge) (dom : Byte) (j : Nat), j < 16 →
    (rateBytes (domXor dom s)).getD j 0 = (rateBytes s).getD j 0 ^^^ (if j = 15 then dom else 0x00) ∧
    (domXor dom s).a0.l3 = s.a0.l3 ^^^ domWord dom ∧
    (domXor dom s).a1 = s.a1 ∧ (domXor dom s).a2 = s.a2) ∧
  (∀ dom : Byte, (domWord dom).toNat = dom.toNat * 2 ^ 24)

/-! ### Absorb and squeeze -/

/-- R76. absorb: the empty operand, the full and the partial last block, and the blocks before the last;
the XOR steps of one block commute; at 15 bytes the padding and the domain byte meet in rate byte 15; a
zero domain byte changes nothing; and absorb is max(1, ceil(n/16)) times "XOR a mask into the rate,
permute", with masks that depend on the operand and the domain byte alone, so it touches the capacity by
permute alone. -/
def Obligations.AbsorbBlockByBlock : Prop :=
  (∀ (cfg : Config) (s : Sponge) (dom : Byte) (data : List Byte),
    absorb cfg s [] dom = permute cfg (domXor dom s) ∧
    (data.length = 16 → absorb cfg s data dom = permute cfg (domXor dom (rateXor data s))) ∧
    (1 ≤ data.length → data.length < 16 →
      absorb cfg s data dom = permute cfg (domXor dom (padXor data.length (rateXor data s)))) ∧
    (16 < data.length → absorb cfg s data dom =
      absorb cfg (permute cfg (domXor dom (rateXor (data.take 16) s))) (data.drop 16) dom) ∧
    (∀ m, domXor dom (padXor m (rateXor data s)) = rateXor data (padXor m (domXor dom s)) ∧
      padXor m (rateXor data s) = rateXor data (padXor m s)) ∧
    (data.length = 15 →
      (rateBytes (domXor dom (padXor 15 (rateXor data s)))).getD 15 0 =
        (rateBytes s).getD 15 0 ^^^ (0x01 ^^^ dom)) ∧
    domXor 0x00 s = s) ∧
  (∀ (data : List Byte) (dom : Byte), ∃ masks : List Plane,
    masks.length = max 1 ((data.length + 15) / 16) ∧
    ∀ (cfg : Config) (s : Sponge), absorb cfg s data dom = rateChain cfg masks s)

/-- 42_duplex.md R83 (marked derived there): an operand whose last block is short and the operand that
continues it with 0x01 and zeros are absorbed to the same state, and so are the empty operand and sixteen
zero bytes. -/
def Obligations.PaddingDoesNotSeparateOperands : Prop :=
  ∀ (cfg : Config) (s : Sponge) (dom : Byte) (x : List Byte),
    (x.length % 16 ≠ 0 → absorb cfg s x dom = absorb cfg s (padded x) dom) ∧
    absorb cfg s [] dom = absorb cfg s (List.replicate 16 0x00) dom

/-- R78. squeeze: up to 16 bytes are the rate and change nothing; more are the rate, then DomXor and
permute, then the rest; the output has exactly the length asked for; and the number of permutes is
max(0, ceil(length/16) - 1). -/
def Obligations.SqueezeBlockByBlock : Prop :=
  ∀ (cfg : Config) (s : Sponge) (len : Nat) (dom : Byte),
    (len ≤ 16 → squeeze cfg s len dom = (s, rateRead s len)) ∧
    (16 < len →
      (squeeze cfg s len dom).1 = (squeeze cfg (permute cfg (domXor dom s)) (len - 16) dom).1 ∧
      (squeeze cfg s len dom).2 =
        rateRead s 16 ++ (squeeze cfg (permute cfg (domXor dom s)) (len - 16) dom).2) ∧
    (squeeze cfg s len dom).2.length = len ∧
    (squeeze cfg s len dom).1 =
      rateChain cfg (List.replicate ((len + 15) / 16 - 1) (laneMask 3 (domWord dom))) s

/-- 42_duplex.md R81, R82 (marked derived there): a shorter squeeze returns a prefix of a longer one,
and one of at most 16 bytes leaves the state and does not depend on its domain byte. -/
def Obligations.ShorterSqueezeIsAPrefix : Prop :=
  ∀ (cfg : Config) (s : Sponge) (a b : Nat) (dom : Byte),
    (a ≤ b → (squeeze cfg s a dom).2 <+: (squeeze cfg s b dom).2) ∧
    (a ≤ 16 → (squeeze cfg s a dom).1 = s ∧
      ∀ dom', squeeze cfg s a dom = squeeze cfg s a dom')

/-! ### The commands -/

/-- R75. DUP_INIT: in every phase, twelve zero words, PHASE = DUPLEX, V = 0 and an empty OK response;
ERR_INPUT when LEN is not 0 or a payload is present; ERR_ILLEGAL when DOM or RSV is not zero; and twice is
the same as once. -/
def Obligations.DupInitConstructs : Prop :=
  ∀ s : State,
    exec (.dupInit 0 []) s = .next { s with
      sponge := zeroSponge, phase := .duplex, v := false,
      outbox := s.outbox ++ [[0x00, 0x01, 0x00, 0x00, 0x00, 0x00, 0x00, 0x00]] } ∧
    (∀ (len : Word) (payload : List Byte), len ≠ 0 ∨ payload ≠ [] →
      exec (.dupInit len payload) s = errorOutcome .errInput s) ∧
    (∀ t u : State, exec (.dupInit 0 []) s = .next t → exec (.dupInit 0 []) t = .next u →
      u.sponge = t.sponge ∧ u.phase = t.phase ∧ u.v = t.v) ∧
    (∀ (dom r2 r3 n0 n1 n2 n3 : Byte) (payload : List Byte),
      (dom = 0 ∧ r2 = 0 ∧ r3 = 0 →
        decode (0x10 :: dom :: r2 :: r3 :: n0 :: n1 :: n2 :: n3 :: payload) =
          .ok (.dupInit (le32 n0 n1 n2 n3) payload)) ∧
      (¬ (dom = 0 ∧ r2 = 0 ∧ r3 = 0) → ∀ rest : List Input,
        step (setInbox
            (.packet (0x10 :: dom :: r2 :: r3 :: n0 :: n1 :: n2 :: n3 :: payload) :: rest) s) =
          errorOutcome .errIllegal (setInbox rest s)))

/-- R77. ABSORB: in DUPLEX, S becomes absorb(S, data, DOM) and an empty OK response is sent, PHASE and V
unchanged; ERR_PHASE in every other phase; ERR_INPUT on a wrong length; any DOM is accepted; ERR_ILLEGAL
when RSV is not zero. -/
def Obligations.AbsorbCommandAbsorbs : Prop :=
  ∀ (s : State) (dom : Byte) (len : Word) (data : List Byte),
    (s.phase = .duplex → data.length = len.toNat → len.toNat ≤ s.cfg.maxLen →
      exec (.absorb dom len data) s = .next { s with
        sponge := absorb s.cfg s.sponge data dom,
        outbox := s.outbox ++ [responsePacket .ok s.phase s.v []] }) ∧
    (s.phase ≠ .duplex → exec (.absorb dom len data) s = errorOutcome .errPhase s) ∧
    (s.phase = .duplex → data.length ≠ len.toNat ∨ s.cfg.maxLen < len.toNat →
      exec (.absorb dom len data) s = errorOutcome .errInput s) ∧
    (∀ (r2 r3 n0 n1 n2 n3 : Byte),
      (r2 = 0 ∧ r3 = 0 → decode (0x11 :: dom :: r2 :: r3 :: n0 :: n1 :: n2 :: n3 :: data) =
        .ok (.absorb dom (le32 n0 n1 n2 n3) data)) ∧
      (¬ (r2 = 0 ∧ r3 = 0) → ∀ rest : List Input,
        step (setInbox
            (.packet (0x11 :: dom :: r2 :: r3 :: n0 :: n1 :: n2 :: n3 :: data) :: rest) s) =
          errorOutcome .errIllegal (setInbox rest s)))

/-- R79. SQUEEZE: in DUPLEX, S and the output are those of squeeze(S, LEN, DOM), PHASE and V unchanged;
ERR_PHASE in every other phase; ERR_INPUT when a payload is present or LEN is above MAXLEN; any DOM is
accepted; ERR_ILLEGAL when RSV is not zero. -/
def Obligations.SqueezeCommandSqueezes : Prop :=
  ∀ (s : State) (dom : Byte) (len : Word) (payload : List Byte),
    (s.phase = .duplex → payload = [] → len.toNat ≤ s.cfg.maxLen →
      exec (.squeeze dom len payload) s = .next { s with
        sponge := (squeeze s.cfg s.sponge len.toNat dom).1,
        outbox := s.outbox ++
          [responsePacket .ok s.phase s.v (squeeze s.cfg s.sponge len.toNat dom).2] }) ∧
    (s.phase ≠ .duplex → exec (.squeeze dom len payload) s = errorOutcome .errPhase s) ∧
    (s.phase = .duplex → payload ≠ [] ∨ s.cfg.maxLen < len.toNat →
      exec (.squeeze dom len payload) s = errorOutcome .errInput s) ∧
    (∀ (r2 r3 n0 n1 n2 n3 : Byte),
      (r2 = 0 ∧ r3 = 0 → decode (0x12 :: dom :: r2 :: r3 :: n0 :: n1 :: n2 :: n3 :: payload) =
        .ok (.squeeze dom (le32 n0 n1 n2 n3) payload)) ∧
      (¬ (r2 = 0 ∧ r3 = 0) → ∀ rest : List Input,
        step (setInbox
            (.packet (0x12 :: dom :: r2 :: r3 :: n0 :: n1 :: n2 :: n3 :: payload) :: rest) s) =
          errorOutcome .errIllegal (setInbox rest s)))

/-- R85. Session construction from twelve zero words: one block for the key, one for the nonce, each with
0x03 and no padding bit, then the associated data, and no third absorb when it is empty. -/
def Obligations.SessionConstruction : Prop :=
  ∀ (cfg : Config) (key nonce ad : List Byte), key.length = 16 → nonce.length = 16 →
    aeadConstruct cfg key nonce [] =
      permute cfg (domXor 0x03 (rateXor nonce
        (permute cfg (domXor 0x03 (rateXor key zeroSponge))))) ∧
    aeadConstruct cfg key nonce [] = absorb cfg zeroSponge (key ++ nonce) 0x03 ∧
    (ad ≠ [] → aeadConstruct cfg key nonce ad =
      absorb cfg (aeadConstruct cfg key nonce []) ad 0x03) ∧
    (∃ masks : List Plane, masks.length = 2 + (ad.length + 15) / 16 ∧
      aeadConstruct cfg key nonce ad = rateChain cfg masks zeroSponge)

/-- R86. AEAD_INIT: in every phase, S is the constructed session, PHASE = AEAD_INIT, V = 0 and an empty
OK response; ERR_INPUT when LEN is below 32 or not the payload's length (or above MAXLEN), with the old
session kept; ERR_ILLEGAL when DOM or RSV is not zero. -/
def Obligations.AeadInitConstructs : Prop :=
  ∀ (s : State) (len : Word) (payload : List Byte),
    (32 ≤ len.toNat → payload.length = len.toNat → len.toNat ≤ s.cfg.maxLen →
      exec (.aeadInit len payload) s = .next { s with
        sponge := aeadConstruct s.cfg (payload.take 16) ((payload.drop 16).take 16) (payload.drop 32),
        phase := .aeadInit, v := false,
        outbox := s.outbox ++ [responsePacket .ok .aeadInit false []] }) ∧
    (len.toNat < 32 ∨ payload.length ≠ len.toNat ∨ s.cfg.maxLen < len.toNat →
      exec (.aeadInit len payload) s = errorOutcome .errInput s) ∧
    (∀ (dom r2 r3 n0 n1 n2 n3 : Byte),
      (dom = 0 ∧ r2 = 0 ∧ r3 = 0 →
        decode (0x20 :: dom :: r2 :: r3 :: n0 :: n1 :: n2 :: n3 :: payload) =
          .ok (.aeadInit (le32 n0 n1 n2 n3) payload)) ∧
      (¬ (dom = 0 ∧ r2 = 0 ∧ r3 = 0) → ∀ rest : List Input,
        step (setInbox
            (.packet (0x20 :: dom :: r2 :: r3 :: n0 :: n1 :: n2 :: n3 :: payload) :: rest) s) =
          errorOutcome .errIllegal (setInbox rest s)))

/-- R87. aead_encrypt: the empty message has no chunk, and its tag is the rate; otherwise the first chunk
is XORed with the rate and absorbed as plaintext with 0x03, and the rest follows. The ciphertext is as
long as the plaintext, the tag has 16 bytes, the number of permutes is ceil(n/16), and a full chunk
leaves the ciphertext in the rate before its permute, with 0x03 in byte 15. -/
def Obligations.EncryptChunkByChunk : Prop :=
  ∀ (cfg : Config) (s : Sponge) (pt : List Byte),
    aeadEncrypt cfg s [] = (s, [], rateRead s 16) ∧
    (pt ≠ [] → aeadEncrypt cfg s pt =
      let p := pt.take 16
      let r := aeadEncrypt cfg (absorb cfg s p 0x03) (pt.drop 16)
      (r.1, xorBytes p (rateRead s p.length) ++ r.2.1, r.2.2)) ∧
    (aeadEncrypt cfg s pt).2.1.length = pt.length ∧
    (aeadEncrypt cfg s pt).2.2 = rateRead (aeadEncrypt cfg s pt).1 16 ∧
    (∃ masks : List Plane, masks.length = (pt.length + 15) / 16 ∧
      (aeadEncrypt cfg s pt).1 = rateChain cfg masks s) ∧
    (pt.length = 16 → ∀ j, j < 16 →
      (rateBytes (domXor 0x03 (rateXor pt s))).getD j 0 =
        (xorBytes pt (rateRead s 16)).getD j 0 ^^^ (if j = 15 then 0x03 else 0x00))

/-- R88. ENCRYPT: in AEAD_INIT, S is the state aead_encrypt leaves, PHASE = AEAD_FINAL, V unchanged, and
the OK response carries ct ‖ tag; ERR_PHASE in every other phase; ERR_INPUT on a wrong length; ERR_ILLEGAL
when DOM or RSV is not zero. -/
def Obligations.EncryptCommandEncrypts : Prop :=
  ∀ (s : State) (len : Word) (pt : List Byte),
    (s.phase = .aeadInit → pt.length = len.toNat → len.toNat ≤ s.cfg.maxLen →
      exec (.encrypt len pt) s = .next { s with
        sponge := (aeadEncrypt s.cfg s.sponge pt).1, phase := .aeadFinal,
        outbox := s.outbox ++ [responsePacket .ok .aeadFinal s.v
          ((aeadEncrypt s.cfg s.sponge pt).2.1 ++ (aeadEncrypt s.cfg s.sponge pt).2.2)] }) ∧
    (s.phase ≠ .aeadInit → exec (.encrypt len pt) s = errorOutcome .errPhase s) ∧
    (s.phase = .aeadInit → pt.length ≠ len.toNat ∨ s.cfg.maxLen < len.toNat →
      exec (.encrypt len pt) s = errorOutcome .errInput s) ∧
    (∀ (dom r2 r3 n0 n1 n2 n3 : Byte),
      (dom = 0 ∧ r2 = 0 ∧ r3 = 0 → decode (0x21 :: dom :: r2 :: r3 :: n0 :: n1 :: n2 :: n3 :: pt) =
        .ok (.encrypt (le32 n0 n1 n2 n3) pt)) ∧
      (¬ (dom = 0 ∧ r2 = 0 ∧ r3 = 0) → ∀ rest : List Input,
        step (setInbox
            (.packet (0x21 :: dom :: r2 :: r3 :: n0 :: n1 :: n2 :: n3 :: pt) :: rest) s) =
          errorOutcome .errIllegal (setInbox rest s)))

/-- R89. aead_decrypt: aead_encrypt with plaintext and ciphertext exchanged in the XOR; what is absorbed is
the recovered plaintext, the number of permutes is ceil(n/16), and the tag is used in the final
comparison alone. -/
def Obligations.DecryptChunkByChunk : Prop :=
  ∀ (cfg : Config) (s : Sponge) (ct tag : List Byte),
    aeadDecrypt cfg s [] tag = (s, [], decide (rateRead s 16 = tag)) ∧
    (ct ≠ [] → aeadDecrypt cfg s ct tag =
      let c := ct.take 16
      let p := xorBytes c (rateRead s c.length)
      let r := aeadDecrypt cfg (absorb cfg s p 0x03) (ct.drop 16) tag
      (r.1, p ++ r.2.1, r.2.2)) ∧
    (aeadDecrypt cfg s ct tag).2.1.length = ct.length ∧
    (∃ masks : List Plane, masks.length = (ct.length + 15) / 16 ∧
      (aeadDecrypt cfg s ct tag).1 = rateChain cfg masks s) ∧
    (∀ tag' : List Byte, (aeadDecrypt cfg s ct tag').1 = (aeadDecrypt cfg s ct tag).1 ∧
      (aeadDecrypt cfg s ct tag').2.1 = (aeadDecrypt cfg s ct tag).2.1) ∧
    ((aeadDecrypt cfg s ct tag).2.2 = true ↔ rateRead (aeadDecrypt cfg s ct tag).1 16 = tag)

/-- R90, R101. DECRYPT: in AEAD_INIT, S is the state aead_decrypt leaves, V is its verdict,
PHASE = AEAD_FINAL, and the response has STATUS = OK and carries the recovered plaintext whatever the
verdict; ERR_PHASE in every other phase; ERR_INPUT when LEN is below 16 or not the payload's length (or
above MAXLEN); ERR_ILLEGAL when DOM or RSV is not zero. -/
def Obligations.DecryptCommandDecrypts : Prop :=
  ∀ (s : State) (len : Word) (payload : List Byte),
    (s.phase = .aeadInit → 16 ≤ len.toNat → payload.length = len.toNat → len.toNat ≤ s.cfg.maxLen →
      let r := aeadDecrypt s.cfg s.sponge (payload.drop 16) (payload.take 16)
      exec (.decrypt len payload) s = .next { s with
        sponge := r.1, v := r.2.2, phase := .aeadFinal,
        outbox := s.outbox ++ [responsePacket .ok .aeadFinal r.2.2 r.2.1] }) ∧
    (s.phase ≠ .aeadInit → exec (.decrypt len payload) s = errorOutcome .errPhase s) ∧
    (s.phase = .aeadInit →
      len.toNat < 16 ∨ payload.length ≠ len.toNat ∨ s.cfg.maxLen < len.toNat →
      exec (.decrypt len payload) s = errorOutcome .errInput s) ∧
    (∀ (dom r2 r3 n0 n1 n2 n3 : Byte),
      (dom = 0 ∧ r2 = 0 ∧ r3 = 0 →
        decode (0x22 :: dom :: r2 :: r3 :: n0 :: n1 :: n2 :: n3 :: payload) =
          .ok (.decrypt (le32 n0 n1 n2 n3) payload)) ∧
      (¬ (dom = 0 ∧ r2 = 0 ∧ r3 = 0) → ∀ rest : List Input,
        step (setInbox
            (.packet (0x22 :: dom :: r2 :: r3 :: n0 :: n1 :: n2 :: n3 :: payload) :: rest) s) =
          errorOutcome .errIllegal (setInbox rest s)))

/-! ### Errors and responses -/

/-- R98, with the table of R18: exactly when a command ends with ERR_PHASE, and that it then changes
nothing. The two transient phases, which the table leaves out, follow the words of R98 (log entry 6). -/
def Obligations.PhaseTestRefuses : Prop :=
  ∀ (i : Instr) (s : State),
    (exec i s = errorOutcome .errPhase s ↔
      ((i.opcode = .absorb ∨ i.opcode = .squeeze) ∧ s.phase ≠ .duplex) ∨
      ((i.opcode = .encrypt ∨ i.opcode = .decrypt) ∧ s.phase ≠ .aeadInit))

/-- R99. Exactly when a command ends with ERR_INPUT: its phase is accepted and an operand length is
wrong. -/
def Obligations.LengthTestRefuses : Prop :=
  ∀ (i : Instr) (s : State),
    (exec i s = errorOutcome .errInput s ↔
      accepts i.opcode s.phase = true ∧
      (s.cfg.maxLen < i.len.toNat ∨
        match i with
        | .dupInit len payload => len ≠ 0 ∨ payload ≠ []
        | .absorb _ len payload => payload.length ≠ len.toNat
        | .squeeze _ _ payload => payload ≠ []
        | .aeadInit len payload => len.toNat < 32 ∨ payload.length ≠ len.toNat
        | .encrypt len payload => payload.length ≠ len.toNat
        | .decrypt len payload => len.toNat < 16 ∨ payload.length ≠ len.toNat))

/-- R97. Exactly when a packet ends with ERR_ILLEGAL: it is shorter than 8 bytes, its OPC is unassigned,
RSV is not zero, or DOM is not zero in a command other than ABSORB and SQUEEZE; whatever the phase and
the payload. -/
def Obligations.IllegalPacketIsRefused : Prop :=
  ∀ (s : State) (p : Packet) (rest : List Input), s.inbox = .packet p :: rest →
    (step s = errorOutcome .errIllegal { s with inbox := rest } ↔
      p.length < 8 ∨
      p.getD 0 0 ∉ ([0x10, 0x11, 0x12, 0x20, 0x21, 0x22] : List Byte) ∨
      p.getD 2 0 ≠ 0 ∨ p.getD 3 0 ≠ 0 ∨
      (p.getD 1 0 ≠ 0 ∧ p.getD 0 0 ∉ ([0x11, 0x12] : List Byte)))

/-- R96, R100. Every packet is answered by one response whose STATUS is the first error that applies, in
the order illegal, phase, input; and when it is an error, S, PHASE and V keep their values and the
response is 8 bytes with OLEN = 0, showing the unchanged PHASE and V. -/
def Obligations.ErrorsAnswerAndChangeNothing : Prop :=
  ∀ (s : State) (p : Packet) (rest : List Input), s.inbox = .packet p :: rest →
    ∃ (t : State) (r : Packet), step s = .next t ∧ t.outbox = s.outbox ++ [r] ∧ t.inbox = rest ∧
      ((∀ i, decode p ≠ .ok i) → respStatus r = 0x01) ∧
      (∀ i, decode p = .ok i → accepts i.opcode s.phase = false → respStatus r = 0x02) ∧
      (∀ i, decode p = .ok i → accepts i.opcode s.phase = true → inputOk s.cfg i = false →
        respStatus r = 0x03) ∧
      (∀ i, decode p = .ok i → accepts i.opcode s.phase = true → inputOk s.cfg i = true →
        respStatus r = 0x00) ∧
      (respStatus r ≠ 0x00 →
        t = { s with inbox := rest, outbox := s.outbox ++ [r] } ∧
        r.length = 8 ∧ respOlen r = 0 ∧ respPhase r = phaseByte s.phase ∧ respV r = vByte s.v)

/-- R46. The response packet: STATUS, PHASE in bits 2:0, V in bit 0, a zero byte, OLEN little-endian, then
the payload, also read as the word Q0; and the packet that answers a command shows PHASE and V as they
stand after it, with no payload on any status but OK. OLEN says nothing of a payload of 2^32 bytes or
more, whose length it cannot hold (log entry 5). -/
def Obligations.ResponsePacketLayout : Prop :=
  (∀ (st : Status) (p : Phase) (v : Bool) (payload : List Byte),
    let r := responsePacket st p v payload
    r.length = 8 + payload.length ∧
    r.getD 0 0 = statusByte st ∧
    r.getD 1 0 = (phaseCode p).setWidth 8 ∧
    r.getD 2 0 = (if v then 1 else 0) ∧
    r.getD 3 0 = 0x00 ∧
    headerW0 r = some ((statusByte st).setWidth 32 ||| ((phaseCode p).setWidth 32 <<< 8) |||
      (if v then 1 <<< 16 else 0)) ∧
    (payload.length < 2 ^ 32 →
      (r.getD 4 0).toNat + 256 * (r.getD 5 0).toNat + 65536 * (r.getD 6 0).toNat +
        16777216 * (r.getD 7 0).toNat = payload.length) ∧
    r.drop 8 = payload) ∧
  (statusByte .ok = 0x00 ∧ statusByte .errIllegal = 0x01 ∧ statusByte .errPhase = 0x02 ∧
    statusByte .errInput = 0x03) ∧
  (phaseCode .idle = 0 ∧ phaseCode .duplex = 1 ∧ phaseCode .aeadInit = 2 ∧
    phaseCode .aeadEnc = 3 ∧ phaseCode .aeadDec = 4 ∧ phaseCode .aeadFinal = 5) ∧
  (∀ (s : State) (p : Packet) (rest : List Input), s.inbox = .packet p :: rest →
    ∃ (t : State) (st : Status) (payload : List Byte), step s = .next t ∧
      t.outbox = s.outbox ++ [responsePacket st t.phase t.v payload] ∧ (st ≠ .ok → payload = []))

/-! ### Steps and runs -/

/-- R50, last step: when the oldest offered packet decodes to a command, the step is that command, run in
the state that has taken the packet. -/
def Obligations.StepRunsTheDecodedCommand : Prop :=
  ∀ (s : State) (p : Packet) (rest : List Input) (i : Instr),
    s.inbox = .packet p :: rest → decode p = .ok i → step s = exec i { s with inbox := rest }

/-- R111 (DEDUCED, log entry 2): with nothing offered the engine waits, and its state is held. -/
def Obligations.WaitingHoldsTheState : Prop :=
  ∀ s : State, s.inbox = [] → step s = .next s

/-- R23, R113, R114. The values reset leaves, in the model's reset state and at a reset event, which
sends no response and leaves the configuration; and a reset during a command does the same, so it leaves
the state that a reset after the command would leave. (What becomes of the inputs behind a reset is the
model's, log entry 3, and is not said here.) -/
def Obligations.ResetGivesTheResetValues : Prop :=
  (State.reset.sponge = zeroSponge ∧ State.reset.phase = .idle ∧ State.reset.v = false) ∧
  (∀ i : Fin 12, spongeWord zeroSponge i = 0) ∧
  ∀ (s : State) (rest : List Input) (p : Packet),
    s.inbox = .reset :: rest ∨ s.inbox = .cutByReset p :: rest →
      (∃ t : State, step s = .next t ∧ t.sponge = zeroSponge ∧ t.phase = .idle ∧ t.v = false ∧
        t.cfg = s.cfg ∧ t.outbox = s.outbox) ∧
      (∃ t u w : State, step s = .next t ∧
        step { s with inbox := .packet p :: .reset :: rest } = .next u ∧ step u = .next w ∧
        w.sponge = t.sponge ∧ w.phase = t.phase ∧ w.v = t.v)

/-- R40. One response answers each packet, in order: a run over what is offered takes every input, keeps
the responses sent before, and adds one response for each packet. Resets may stand among the inputs; that
one leaves the inputs behind it, which are then taken and answered, and the responses sent before it, is
the model's choice and no rule (DEDUCED, log entry 3). -/
def Obligations.OneResponsePerPacket : Prop :=
  ∀ (s : State) (k : Nat), k ≤ s.inbox.length →
    ∃ (t : State) (rs : List Packet), Host.Core.run Sys2Proof.core k s = .next t ∧
      t.inbox = s.inbox.drop k ∧ t.outbox = s.outbox ++ rs ∧
      rs.length = ((s.inbox.take k).filter isAnswered).length

/-- 20_memory.md R36, 70_reset_and_hazards.md R123: what is offered behind a command is held and changes
nothing of what is done before it. Resets may stand among the inputs; that what is offered behind one is
still held is the model's choice and no rule (DEDUCED, log entry 3). -/
def Obligations.OfferedPacketsAreHeld : Prop :=
  ∀ (s : State) (later : List Input) (k : Nat), k ≤ s.inbox.length →
    ∃ t : State, Host.Core.run Sys2Proof.core k s = .next t ∧
      Host.Core.run Sys2Proof.core k { s with inbox := s.inbox ++ later } =
        .next { t with inbox := t.inbox ++ later }

/-- 70_reset_and_hazards.md R129, 60_exceptions.md R95: every step of every state goes on, so no run
stops. It is the model's reading of these rules that nothing stops the engine (DEDUCED, log entry 13), and
that a step with nothing offered is a step that waits (DEDUCED, log entry 2). -/
def Obligations.EveryRunGoesOn : Prop :=
  ∀ (k : Nat) (s : State), ∃ t : State, Host.Core.run Sys2Proof.core k s = .next t

/-- R39. Instances side by side: after any interleaving of steps, each instance is in the state it would
be in alone, and no instance appears or disappears. -/
def Obligations.InstancesAreIndependent : Prop :=
  ∀ (es : List State) (schedule : List Nat) (k : Nat) (s : State), es[k]? = some s →
    (systemRun es schedule).length = es.length ∧
    ∃ t : State, (systemRun es schedule)[k]? = some t ∧
      Host.Core.run Sys2Proof.core (schedule.count k) s = .next t

/-! ### Encoding -/

/-- R42, R43, R44, R54: decoding an encoded command gives it back, whatever its operands. -/
def Obligations.DecodeInvertsEncode : Prop :=
  ∀ i : Instr, decode (encode i) = .ok i

/-- The other direction: a packet that is a command is the encoding of that command, so no two packets
are the same command. -/
def Obligations.EncodeInvertsDecode : Prop :=
  ∀ (p : Packet) (i : Instr), decode p = .ok i → encode i = p

/-- R44. A packet with a whole header decodes to a command of an opcode exactly when its word W0 selects
that opcode's row, `W0 & mask = match`; the rows are those of the table; and they are disjoint. -/
def Obligations.DecoderFollowsTheOpcodeTable : Prop :=
  (opcodes.map fun o => (o, opcodeByte o, rowMatch o, rowMask o)) =
    [(.dupInit, 0x10, 0x00000010, 0xFFFFFFFF), (.absorb, 0x11, 0x00000011, 0xFFFF00FF),
      (.squeeze, 0x12, 0x00000012, 0xFFFF00FF), (.aeadInit, 0x20, 0x00000020, 0xFFFFFFFF),
      (.encrypt, 0x21, 0x00000021, 0xFFFFFFFF), (.decrypt, 0x22, 0x00000022, 0xFFFFFFFF)] ∧
  (∀ (p : Packet) (w0 : Word) (o : Opcode), 8 ≤ p.length → headerW0 p = some w0 →
    (w0 &&& rowMask o = rowMatch o ↔ ∃ i, decode p = .ok i ∧ i.opcode = o)) ∧
  (∀ (w0 : Word) (o o' : Opcode), w0 &&& rowMask o = rowMatch o → w0 &&& rowMask o' = rowMatch o' →
    o = o')

/-- R53, its worked command encodings, written out from R42 to R44. -/
def Obligations.WorkedEncodings : Prop :=
  decode [0x10, 0, 0, 0, 0, 0, 0, 0] = .ok (.dupInit 0 []) ∧
  decode [0x11, 0x03, 0, 0, 0x03, 0, 0, 0, 0xAA, 0xBB, 0xCC] =
    .ok (.absorb 0x03 3 [0xAA, 0xBB, 0xCC]) ∧
  decode [0x11, 0x03, 0, 0, 0, 0, 0, 0] = .ok (.absorb 0x03 0 []) ∧
  decode [0x12, 0x01, 0, 0, 0x10, 0, 0, 0] = .ok (.squeeze 0x01 16 []) ∧
  decode [0x12, 0x01, 0, 0, 0x2C, 0x01, 0, 0] = .ok (.squeeze 0x01 300 []) ∧
  decode ([0x20, 0, 0, 0, 0x20, 0, 0, 0] ++ List.replicate 32 0) =
    .ok (.aeadInit 32 (List.replicate 32 0)) ∧
  decode [0x21, 0, 0, 0, 0x04, 0, 0, 0, 0x74, 0x65, 0x73, 0x74] =
    .ok (.encrypt 4 [0x74, 0x65, 0x73, 0x74]) ∧
  (∀ tag : List Byte, decode ([0x22, 0, 0, 0, 0x14, 0, 0, 0] ++ tag ++ [0x01, 0x02, 0x03, 0x04]) =
    .ok (.decrypt 20 (tag ++ [0x01, 0x02, 0x03, 0x04]))) ∧
  responsePacket .ok .aeadFinal true [0x74, 0x65, 0x73, 0x74] =
    [0x00, 0x05, 0x01, 0x00, 0x04, 0x00, 0x00, 0x00, 0x74, 0x65, 0x73, 0x74] ∧
  responsePacket .errPhase .idle false [] = [0x02, 0x00, 0x00, 0x00, 0x00, 0x00, 0x00, 0x00]

/-! ### Frames and whole-machine rules -/

/-- 10_state.md R14, R22: what each command leaves unchanged. No command writes the configuration or takes
an input; each adds one response. ABSORB and SQUEEZE leave PHASE and V, and SQUEEZE of at most 16 bytes
leaves every state word; ENCRYPT leaves V, and ENCRYPT and DECRYPT of an empty message leave every state
word. -/
def Obligations.CommandFrame : Prop :=
  ∀ (i : Instr) (s t : State), exec i s = .next t →
    t.cfg = s.cfg ∧ t.inbox = s.inbox ∧ (∃ r, t.outbox = s.outbox ++ [r]) ∧
    (i.opcode = .absorb → t.phase = s.phase ∧ t.v = s.v) ∧
    (i.opcode = .squeeze → t.phase = s.phase ∧ t.v = s.v ∧
      (i.len.toNat ≤ 16 → t.sponge = s.sponge)) ∧
    (i.opcode = .encrypt → t.v = s.v ∧ (i.payload = [] → t.sponge = s.sponge)) ∧
    (i.opcode = .decrypt → i.payload.length ≤ 16 → t.sponge = s.sponge)

/-- The invariant of a run holds at reset (R16, R19, R23, R46, R48). -/
def Obligations.ResetMeetsTheInvariant : Prop :=
  EngineInv State.reset

/-- 10_state.md R16, R17, R19, R23, 30_encoding.md R46, R48: every step keeps the invariant. PHASE is a
held phase and never a transient one; in IDLE the state words are zero; V is set only in AEAD_FINAL; and
every response sent has an assigned STATUS, the code of a held phase, and an OLEN that fits its
payload. -/
def Obligations.StepKeepsTheInvariant : Prop :=
  ∀ s t : State, EngineInv s → step s = .next t → EngineInv t

/-- R17. The only writes of PHASE. -/
def Obligations.PhaseTransitions : Prop :=
  ∀ s t : State, step s = .next t →
    t.phase = s.phase ∨
    (t.phase = .idle ∧
      ((∃ rest, s.inbox = .reset :: rest) ∨ (∃ p rest, s.inbox = .cutByReset p :: rest))) ∨
    (∃ p rest i, s.inbox = .packet p :: rest ∧ decode p = .ok i ∧
      ((i.opcode = .dupInit ∧ t.phase = .duplex) ∨
        (i.opcode = .aeadInit ∧ t.phase = .aeadInit) ∨
        ((i.opcode = .encrypt ∨ i.opcode = .decrypt) ∧ s.phase = .aeadInit ∧ t.phase = .aeadFinal)))

/-- 10_state.md R19: the writes of V, and nothing else writes it. A reset, and an accepted DUP_INIT or
AEAD_INIT, clear it; an accepted DECRYPT sets it to whether the tag it computed, the rate it leaves, is the
supplied tag; and every other step leaves it as it was: ABSORB, SQUEEZE, ENCRYPT, a refused packet, and a
step that waits (log entry 2). -/
def Obligations.VerdictWrites : Prop :=
  ∀ s : State, ∃ t : State, step s = .next t ∧
    (takesReset s = true → t.v = false) ∧
    (∀ i, acceptedCommand s = some i → i.opcode = .dupInit ∨ i.opcode = .aeadInit → t.v = false) ∧
    (∀ len payload, acceptedCommand s = some (.decrypt len payload) →
      (t.v = true ↔ rateRead t.sponge 16 = payload.take 16)) ∧
    (takesReset s = false →
      (∀ i, acceptedCommand s = some i →
        i.opcode ≠ .dupInit ∧ i.opcode ≠ .aeadInit ∧ i.opcode ≠ .decrypt) →
      t.v = s.v)

/-- 10_state.md R19: V is written and reported, never tested. Two states that differ in V alone step to
states that agree on everything but V and the V byte of the response. -/
def Obligations.VerdictIsNeverTested : Prop :=
  ∀ (s t : State) (b : Bool), step s = .next t →
    ∃ (t' : State) (rs rs' : List Packet), step { s with v := b } = .next t' ∧
      t'.sponge = t.sponge ∧ t'.phase = t.phase ∧ t'.inbox = t.inbox ∧ t'.cfg = t.cfg ∧
      t.outbox = s.outbox ++ rs ∧ t'.outbox = s.outbox ++ rs' ∧
      rs'.map (fun r => (r.take 2, r.drop 3)) = rs.map (fun r => (r.take 2, r.drop 3))

/-- 60_exceptions.md R106 (marked derived there): output comes from the rate alone. Two engines that
differ in the capacity alone send the same header and the same first 16 output bytes for a SQUEEZE of any
length, and the same response when it asks for at most 16 bytes; they send the same response, tag or
verdict included, for an ENCRYPT or DECRYPT of an empty message; and the first chunk of every ciphertext
and of every recovered plaintext is the same. -/
def Obligations.CapacityIsNotOutput : Prop :=
  ∀ (s s' : State), s'.sponge.a0 = s.sponge.a0 → s'.phase = s.phase → s'.v = s.v → s'.cfg = s.cfg →
    (∀ (dom : Byte) (len : Word) (payload : List Byte), ∃ (t t' : State) (r r' : Packet),
      exec (.squeeze dom len payload) s = .next t ∧ exec (.squeeze dom len payload) s' = .next t' ∧
      t.outbox = s.outbox ++ [r] ∧ t'.outbox = s'.outbox ++ [r'] ∧
      r'.take 24 = r.take 24 ∧ (len.toNat ≤ 16 → r' = r)) ∧
    (∀ len : Word, ∃ (t t' : State) (r : Packet),
      exec (.encrypt len []) s = .next t ∧ exec (.encrypt len []) s' = .next t' ∧
      t.outbox = s.outbox ++ [r] ∧ t'.outbox = s'.outbox ++ [r]) ∧
    (∀ (len : Word) (payload : List Byte), payload.length ≤ 16 → ∃ (t t' : State) (r : Packet),
      exec (.decrypt len payload) s = .next t ∧ exec (.decrypt len payload) s' = .next t' ∧
      t.outbox = s.outbox ++ [r] ∧ t'.outbox = s'.outbox ++ [r]) ∧
    (∀ pt : List Byte, (aeadEncrypt s'.cfg s'.sponge pt).2.1.take 16 =
      (aeadEncrypt s.cfg s.sponge pt).2.1.take 16) ∧
    (∀ ct tag : List Byte, (aeadDecrypt s'.cfg s'.sponge ct tag).2.1.take 16 =
      (aeadDecrypt s.cfg s.sponge ct tag).2.1.take 16)

/-- 10_state.md R14, R24, 41_permutation.md R74, 70_reset_and_hazards.md R128 (marked derived there): the
state words change only by XORing a mask into the rate and permuting, from the old words or, for
DUP_INIT and AEAD_INIT, from twelve zero words; and the number of permutes is the one R128 lists. -/
def Obligations.StateWordsChangeByRateMasks : Prop :=
  ∀ (i : Instr) (s : State), accepts i.opcode s.phase = true → inputOk s.cfg i = true →
    ∃ (t : State) (masks : List Plane), exec i s = .next t ∧ masks.length = permuteCalls i ∧
      t.sponge = rateChain s.cfg masks (if constructs i.opcode then zeroSponge else s.sponge)

/-- 10_state.md R20, R24: nothing of one session reaches the next. Whatever two engines with one
configuration held before, once they take the same accepted DUP_INIT or AEAD_INIT, or a reset, they agree
on S, PHASE and V and answer alike for as long as they are given the same inputs. -/
def Obligations.NothingOfASessionReachesTheNext : Prop :=
  ∀ (s s' : State) (x : Input) (rest : List Input) (k : Nat),
    s'.cfg = s.cfg → s.inbox = x :: rest → s'.inbox = x :: rest → beginsAnew s.cfg x = true →
    ∃ (t t' : State) (rs : List Packet),
      Host.Core.run Sys2Proof.core (k + 1) s = .next t ∧
      Host.Core.run Sys2Proof.core (k + 1) s' = .next t' ∧
      t'.sponge = t.sponge ∧ t'.phase = t.phase ∧ t'.v = t.v ∧
      t.outbox = s.outbox ++ rs ∧ t'.outbox = s'.outbox ++ rs

/-- 43_aead_session.md R90, R101, 60_exceptions.md R112: a response the host may trust (STATUS = OK,
PHASE = AEAD_FINAL, V = 1) answers a DECRYPT whose computed tag is the supplied tag, and carries the
recovered plaintext. The premise rules out states that no run reaches, in which V is set outside
AEAD_FINAL. -/
def Obligations.TrustedResponseHasAMatchingTag : Prop :=
  ∀ (s t : State) (r : Packet), EngineInv s → step s = .next t → t.outbox = s.outbox ++ [r] →
    trusted r = true →
    ∃ (p : Packet) (rest : List Input) (len : Word) (payload : List Byte),
      s.inbox = .packet p :: rest ∧ decode p = .ok (.decrypt len payload) ∧ s.phase = .aeadInit ∧
      rateRead t.sponge 16 = payload.take 16 ∧
      respPayload r = (aeadDecrypt s.cfg s.sponge (payload.drop 16) (payload.take 16)).2.1

/-! ### The AEAD session -/

/-- 43_aead_session.md R93 (marked derived there): decrypting what aead_encrypt returned, from the same
state, gives the plaintext, a true verdict and the same final state. -/
def Obligations.DecryptInvertsEncrypt : Prop :=
  ∀ (cfg : Config) (s : Sponge) (pt : List Byte),
    let e := aeadEncrypt cfg s pt
    aeadDecrypt cfg s e.2.1 e.2.2 = (e.1, pt, true)

/-- 43_aead_session.md R93 on the machine: one engine encrypts under a key, nonce and associated data, and
any engine with the same configuration decrypts the response it sent, with V = 1, to the plaintext. The
premises on the lengths are those under which the packets can be formed and accepted: a plaintext of
2^32 - 16 bytes or more has no DECRYPT packet, because 16 + len(ct) does not fit LEN. -/
def Obligations.EncryptedMessageVerifies : Prop :=
  ∀ (s s' : State) (key nonce ad pt : List Byte),
    key.length = 16 → nonce.length = 16 → s'.cfg = s.cfg →
    32 + ad.length < 2 ^ 32 → 32 + ad.length ≤ s.cfg.maxLen →
    16 + pt.length < 2 ^ 32 → 16 + pt.length ≤ s.cfg.maxLen →
    ∃ (ct tag : List Byte) (t t' : State), ct.length = pt.length ∧ tag.length = 16 ∧
      Host.Core.run Sys2Proof.core 2
        { s with inbox := [.packet (aeadInitPacket key nonce ad), .packet (encryptPacket pt)] } =
          .next t ∧
      t.outbox = s.outbox ++ [responsePacket .ok .aeadInit false [],
        responsePacket .ok .aeadFinal false (ct ++ tag)] ∧
      Host.Core.run Sys2Proof.core 2
        { s' with inbox := [.packet (aeadInitPacket key nonce ad), .packet (decryptPacket tag ct)] } =
          .next t' ∧
      t'.outbox = s'.outbox ++ [responsePacket .ok .aeadInit false [],
        responsePacket .ok .aeadFinal true pt] ∧
      t'.sponge = t.sponge

/-- 43_aead_session.md R94 (a) (marked derived there): with key, nonce, ad and ct unchanged, a tag that
differs from the one ENCRYPT produced never verifies, and the plaintext is returned all the same. -/
def Obligations.ChangedTagNeverVerifies : Prop :=
  ∀ (cfg : Config) (s : Sponge) (pt tag' : List Byte),
    let e := aeadEncrypt cfg s pt
    tag' ≠ e.2.2 → aeadDecrypt cfg s e.2.1 tag' = (e.1, pt, false)

/-- 43_aead_session.md R94 (c), 70_reset_and_hazards.md R125 (marked derived there): associated data and its
padded continuation give one session; a message and its padded continuation have the same tag and the
ciphertext of the first is the front of the other's, so the cut-back ciphertext verifies. -/
def Obligations.PaddedContinuationsShareATag : Prop :=
  (∀ (cfg : Config) (key nonce ad : List Byte), ad.length % 16 ≠ 0 →
    aeadConstruct cfg key nonce ad = aeadConstruct cfg key nonce (padded ad)) ∧
  (∀ (cfg : Config) (s : Sponge) (pt : List Byte), pt.length % 16 ≠ 0 →
    let e := aeadEncrypt cfg s pt
    let e' := aeadEncrypt cfg s (padded pt)
    e.2.2 = e'.2.2 ∧ e.1 = e'.1 ∧ e.2.1 = e'.2.1.take pt.length ∧
    aeadDecrypt cfg s (e'.2.1.take pt.length) e'.2.2 = (e'.1, pt, true))

/-- R91. One message per session: an accepted ENCRYPT or DECRYPT leaves AEAD_FINAL; and from any phase but
AEAD_INIT, for as long as no AEAD_INIT packet is taken, every ENCRYPT and DECRYPT is refused with
ERR_PHASE. -/
def Obligations.OneMessagePerSession : Prop :=
  (∀ (i : Instr) (s : State), i.opcode = .encrypt ∨ i.opcode = .decrypt →
    s.phase = .aeadInit → inputOk s.cfg i = true → ∃ t, exec i s = .next t ∧ t.phase = .aeadFinal) ∧
  (∀ (s : State) (k : Nat), s.phase ≠ .aeadInit →
    (∀ p, Input.packet p ∈ s.inbox → ∀ len payload, decode p ≠ .ok (.aeadInit len payload)) →
    ∃ t, Host.Core.run Sys2Proof.core k s = .next t ∧ t.phase ≠ .aeadInit ∧
      ∀ i : Instr, i.opcode = .encrypt ∨ i.opcode = .decrypt →
        exec i t = errorOutcome .errPhase t)

/-- 70_reset_and_hazards.md R118 (marked derived there): two messages encrypted from the same session state.
For as long as the plaintexts agree on whole chunks, up to the end of the next chunk the XOR of the
ciphertexts is the XOR of the plaintexts; and the tag of the empty message is the keystream of the first
chunk of every message. -/
def Obligations.NonceReuseLeaks : Prop :=
  ∀ (cfg : Config) (s : Sponge) (p q : List Byte) (k j : Nat),
    p.take (16 * k) = q.take (16 * k) → j < 16 * (k + 1) → j < p.length → j < q.length →
    ((aeadEncrypt cfg s p).2.1.getD j 0 ^^^ (aeadEncrypt cfg s q).2.1.getD j 0 =
      p.getD j 0 ^^^ q.getD j 0) ∧
    (j < 16 → (aeadEncrypt cfg s p).2.1.getD j 0 =
      p.getD j 0 ^^^ (aeadEncrypt cfg s []).2.2.getD j 0)

/-- 30_encoding.md R52 (marked derived there). (a) AEAD_INIT leaves in S what DUP_INIT, ABSORB of
key ‖ nonce and, if it is not empty, ABSORB of ad leave, and PHASE is AEAD_INIT in place of DUPLEX.
(b) In DUPLEX, one SQUEEZE and one ABSORB for each chunk of a message and a last SQUEEZE of 16 bytes
replay aead_encrypt of a message of any length: the keystream chunks, XORed with the plaintext chunks, are
the ciphertext, the last response is the tag, and S is the state aead_encrypt leaves. (c) They replay
aead_decrypt as well: each chunk absorbed is the ciphertext chunk XORed with the keystream chunk squeezed
just before it, all of them are the recovered plaintext, the verdict is whether the last response is the
supplied tag, and S is the state aead_decrypt leaves. -/
def Obligations.SessionByHandInDuplex : Prop :=
  (∀ (s : State) (key nonce ad : List Byte), key.length = 16 → nonce.length = 16 →
    32 + ad.length < 2 ^ 32 → 32 + ad.length ≤ s.cfg.maxLen →
    let hand := [dupInitPacket, absorbPacket 0x03 (key ++ nonce)] ++
      (if ad = [] then [] else [absorbPacket 0x03 ad])
    ∃ t u : State,
      Host.Core.run Sys2Proof.core 1 { s with inbox := [.packet (aeadInitPacket key nonce ad)] } =
        .next t ∧
      Host.Core.run Sys2Proof.core hand.length { s with inbox := hand.map .packet } = .next u ∧
      u.sponge = t.sponge ∧ t.phase = .aeadInit ∧ u.phase = .duplex ∧ u.v = t.v) ∧
  (∀ (s : State) (pt : List Byte), s.phase = .duplex → 16 ≤ s.cfg.maxLen →
    let e := aeadEncrypt s.cfg s.sponge pt
    let hand := replayPackets (blocks pt)
    ∃ (t : State) (ks : List (List Byte)),
      Host.Core.run Sys2Proof.core hand.length { s with inbox := hand.map .packet } = .next t ∧
      t.outbox = s.outbox ++ replayResponses s.v ks e.2.2 ∧
      (List.zipWith xorBytes (blocks pt) ks).flatten = e.2.1 ∧ t.sponge = e.1) ∧
  (∀ (s : State) (ct tag : List Byte), s.phase = .duplex → 16 ≤ s.cfg.maxLen →
    let d := aeadDecrypt s.cfg s.sponge ct tag
    let hand := replayPackets (blocks d.2.1)
    ∃ (t : State) (ks : List (List Byte)) (computed : List Byte),
      Host.Core.run Sys2Proof.core hand.length { s with inbox := hand.map .packet } = .next t ∧
      t.outbox = s.outbox ++ replayResponses s.v ks computed ∧
      List.zipWith xorBytes (blocks ct) ks = blocks d.2.1 ∧
      (d.2.2 = true ↔ computed = tag) ∧ t.sponge = d.1)
end

