-- ==== Sys2Proof/Laws/Blocks.lean ====
section
/-! SUPPORT. Cutting an operand into blocks (R33): the recursion, the number of blocks, their lengths
and their bytes. -/

namespace Sys2Proof.Machine

/-- More fuel than bytes changes nothing. -/
theorem blocksFuel_eq (f : Nat) : ∀ (g : Nat) (data : List Byte), data.length ≤ f → data.length ≤ g →
    blocksFuel f data = blocksFuel g data := by
  induction f with
  | zero =>
    intro g data hf _
    cases data with
    | nil => cases g <;> rfl
    | cons b bs => simp at hf
  | succ f ih =>
    intro g data hf hg
    cases data with
    | nil => cases g <;> rfl
    | cons b bs =>
      cases g with
      | zero => simp at hg
      | succ g =>
        simp only [blocksFuel]
        rw [ih g] <;> simp_all <;> omega

@[simp] theorem blocks_nil : blocks [] = [] := rfl

/-- The first block is the first 16 bytes; the others are the blocks of the rest. -/
theorem blocks_of_ne_nil {data : List Byte} (h : data ≠ []) :
    blocks data = data.take 16 :: blocks (data.drop 16) := by
  cases data with
  | nil => exact absurd rfl h
  | cons b bs =>
    have e := blocksFuel_eq bs.length (((b :: bs).drop 16).length) ((b :: bs).drop 16)
      (by simp) (Nat.le_refl _)
    simp only [blocks, List.length_cons, blocksFuel, rateLen]
    rw [e]

/-- Blocks can be treated one at a time: to prove something of all operands, prove it of the empty
one, and of a non-empty one from what is left after its first block. -/
theorem block_induction {P : List Byte → Prop} (nil : P [])
    (step : ∀ data, data ≠ [] → P (data.drop 16) → P data) (data : List Byte) : P data := by
  suffices h : ∀ n (data : List Byte), data.length ≤ n → P data from h data.length data (Nat.le_refl _)
  intro n
  induction n with
  | zero =>
    intro data h
    rw [List.length_eq_zero_iff.mp (Nat.le_zero.mp h)]
    exact nil
  | succ n ih =>
    intro data h
    by_cases hd : data = []
    · exact hd ▸ nil
    · have : 0 < data.length := List.length_pos_iff.mpr hd
      exact step data hd (ih _ (by simp; omega))

/-- An operand of n bytes has ceil(n/16) blocks (R33). -/
theorem blocks_length (data : List Byte) : (blocks data).length = (data.length + 15) / 16 := by
  induction data using block_induction with
  | nil => rfl
  | step data hd ih =>
    have : 0 < data.length := List.length_pos_iff.mpr hd
    rw [blocks_of_ne_nil hd, List.length_cons, ih, List.length_drop]
    omega

/-- The blocks in order are the operand. -/
theorem blocks_flatten (data : List Byte) : (blocks data).flatten = data := by
  induction data using block_induction with
  | nil => rfl
  | step data hd ih => rw [blocks_of_ne_nil hd, List.flatten_cons, ih, List.take_append_drop]

/-- No block is empty and none is longer than 16 bytes (R33). -/
theorem blocks_size (data : List Byte) : ∀ b ∈ blocks data, b ≠ [] ∧ b.length ≤ 16 := by
  induction data using block_induction with
  | nil => simp
  | step data hd ih =>
    rw [blocks_of_ne_nil hd]
    intro b hb
    rcases List.mem_cons.mp hb with rfl | hb
    · exact ⟨by simp [hd], by simp⟩
    · exact ih b hb

/-- Only the last block can be shorter than 16 bytes (R33). -/
theorem blocks_full (data : List Byte) : ∀ b ∈ (blocks data).dropLast, b.length = 16 := by
  induction data using block_induction with
  | nil => simp
  | step data hd ih =>
    rw [blocks_of_ne_nil hd]
    by_cases h : data.length ≤ 16
    · simp [List.drop_of_length_le h]
    · have hr : data.drop 16 ≠ [] := by simpa using h
      rw [List.dropLast_cons_of_ne_nil (by simp [blocks_of_ne_nil hr])]
      intro b hb
      rcases List.mem_cons.mp hb with rfl | hb
      · simp
        omega
      · exact ih b hb

/-- An operand of 1 to 16 bytes is one block. -/
theorem blocks_of_short {data : List Byte} (hd : data ≠ []) (h : data.length ≤ 16) :
    blocks data = [data] := by
  rw [blocks_of_ne_nil hd, List.take_of_length_le h, List.drop_of_length_le h, blocks_nil]

/-- A full block in front of an operand is its first block. -/
theorem blocks_append_full {b data : List Byte} (hb : b.length = 16) :
    blocks (b ++ data) = b :: blocks data := by
  have hne : b ++ data ≠ [] := by
    intro e
    have := congrArg List.length e
    simp only [List.length_append, List.length_nil] at this
    omega
  rw [blocks_of_ne_nil hne, ← hb, List.take_left, List.drop_left]

end Sys2Proof.Machine
end

