-- ==== Sys2Proof/Laws/Algebra.lean ====
section
/-! SUPPORT. Word and plane algebra (R56 to R63): rotation by bits, lanes of every plane operation,
and how they commute. -/

namespace Sys2Proof.Machine

/-! ### Rotation -/

/-- `rotl32` is the library's rotation. -/
theorem rotl32_eq_rotateLeft (w : Word) (r : Nat) : rotl32 w r = w.rotateLeft r := by
  by_cases h : r % 32 = 0
  · have hz : w >>> 32 = 0#32 := BitVec.ushiftRight_eq_zero (Nat.le_refl 32)
    simp [rotl32, BitVec.rotateLeft, BitVec.rotateLeftAux, h, hz]
  · simp [rotl32, BitVec.rotateLeft, BitVec.rotateLeftAux, h]

/-- Bit `j` of a rotation is bit `j - r mod 32` of the word. -/
theorem rotl32_getLsbD (w : Word) (r j : Nat) (hj : j < 32) :
    (rotl32 w r).getLsbD j = w.getLsbD ((j + (32 - r % 32)) % 32) := by
  rw [rotl32_eq_rotateLeft, BitVec.getLsbD_rotateLeft]
  have hr : r % 32 < 32 := Nat.mod_lt _ (by decide)
  by_cases h : j < r % 32
  · have e : (j + (32 - r % 32)) % 32 = 32 - r % 32 + j := by omega
    simp [h, e]
  · have e : (j + (32 - r % 32)) % 32 = j - r % 32 := by omega
    simp [h, e, hj]

@[simp] theorem rotl32_xor (u w : Word) (r : Nat) :
    rotl32 (u ^^^ w) r = rotl32 u r ^^^ rotl32 w r := by
  apply BitVec.eq_of_getLsbD_eq
  intro j hj
  simp [rotl32_getLsbD _ _ _ hj]

@[simp] theorem rotl32_and (u w : Word) (r : Nat) :
    rotl32 (u &&& w) r = rotl32 u r &&& rotl32 w r := by
  apply BitVec.eq_of_getLsbD_eq
  intro j hj
  simp [rotl32_getLsbD _ _ _ hj]

@[simp] theorem rotl32_zero_word (r : Nat) : rotl32 0#32 r = 0#32 := by
  apply BitVec.eq_of_getLsbD_eq
  intro j hj
  simp [rotl32_getLsbD _ _ _ hj]

@[simp] theorem rotl32_ones (r : Nat) : rotl32 0xFFFFFFFF r = 0xFFFFFFFF := by
  have ones : ∀ i, i < 32 → (0xFFFFFFFF : Word).getLsbD i = true := by decide
  apply BitVec.eq_of_getLsbD_eq
  intro j hj
  rw [rotl32_getLsbD _ _ _ hj, ones _ (Nat.mod_lt _ (by decide)), ones j hj]

/-- Rotations compose by adding their amounts (R56). -/
theorem rotl32_rotl32 (w : Word) (a b : Nat) : rotl32 (rotl32 w a) b = rotl32 w (a + b) := by
  apply BitVec.eq_of_getLsbD_eq
  intro j hj
  rw [rotl32_getLsbD _ _ _ hj, rotl32_getLsbD _ _ _ (Nat.mod_lt _ (by decide)),
    rotl32_getLsbD _ _ _ hj]
  congr 1
  omega

/-- A rotation by a multiple of 32 is the identity. -/
theorem rotl32_of_mod (w : Word) {r : Nat} (h : r % 32 = 0) : rotl32 w r = w := by
  simp [rotl32, h]

/-- Rotating by `r` and then by its complement to 32 gives the word back. -/
theorem rotl32_cancel (w : Word) (r : Nat) : rotl32 (rotl32 w r) (32 - r % 32) = w := by
  rw [rotl32_rotl32]
  exact rotl32_of_mod w (by omega)

/-! ### Planes, lane by lane -/

/-- Two planes with equal lanes are equal. -/
theorem plane_ext {p q : Plane} (h : ∀ x, planeGet p x = planeGet q x) : p = q := by
  have h0 := h 0
  have h1 := h 1
  have h2 := h 2
  have h3 := h 3
  cases p
  cases q
  simp_all [planeGet]

@[simp] theorem planeGet_planeOf (f : Fin 4 → Word) (x : Fin 4) : planeGet (planeOf f) x = f x := by
  fin_cases x <;> rfl

@[simp] theorem planeGet_planeXor (p q : Plane) (x : Fin 4) :
    planeGet (planeXor p q) x = planeGet p x ^^^ planeGet q x := by
  fin_cases x <;> rfl

@[simp] theorem planeGet_planeAnd (p q : Plane) (x : Fin 4) :
    planeGet (planeAnd p q) x = planeGet p x &&& planeGet q x := by
  fin_cases x <;> rfl

@[simp] theorem planeGet_planeRotl (p : Plane) (r : Nat) (x : Fin 4) :
    planeGet (planeRotl p r) x = rotl32 (planeGet p x) r := by
  fin_cases x <;> rfl

@[simp] theorem planeGet_laneShift (d : LaneDir) (p : Plane) (t : Nat) (x : Fin 4) :
    planeGet (laneShift d p t) x = planeGet p (laneSource d t x) := by
  simp [laneShift]

@[simp] theorem planeGet_zeroPlane (x : Fin 4) : planeGet zeroPlane x = 0#32 := by
  fin_cases x <;> rfl

/-- The source lane of a shift is `x - LANE_DIR * t` modulo 4 (R58). -/
theorem laneSource_val (d : LaneDir) (t : Nat) (x : Fin 4) :
    ((laneSource d t x).val : Int) = ((x.val : Int) - laneSign d * (t : Int)) % 4 := by
  simp only [laneSource, Fin.ofNat]
  omega

theorem laneShift_plus_one (p : Plane) : laneShift .plus p 1 = ⟨p.l3, p.l0, p.l1, p.l2⟩ := rfl

theorem laneShift_minus_one (p : Plane) : laneShift .minus p 1 = ⟨p.l1, p.l2, p.l3, p.l0⟩ := rfl

/-- A shift by two is the same in both directions (R58). -/
theorem laneShift_two (d : LaneDir) (p : Plane) : laneShift d p 2 = ⟨p.l2, p.l3, p.l0, p.l1⟩ := by
  cases d <;> rfl

theorem planeXor_comm (p q : Plane) : planeXor p q = planeXor q p :=
  plane_ext fun x => by simp [BitVec.xor_comm]

theorem planeXor_assoc (p q r : Plane) : planeXor (planeXor p q) r = planeXor p (planeXor q r) :=
  plane_ext fun x => by simp [BitVec.xor_assoc]

theorem planeXor_left_comm (p q r : Plane) :
    planeXor p (planeXor q r) = planeXor q (planeXor p r) :=
  plane_ext fun x => by
    simp only [planeGet_planeXor]
    rw [← BitVec.xor_assoc, ← BitVec.xor_assoc, BitVec.xor_comm (planeGet p x)]

@[simp] theorem planeXor_zero (p : Plane) : planeXor p zeroPlane = p :=
  plane_ext fun x => by simp

@[simp] theorem planeXor_self (p : Plane) : planeXor p p = zeroPlane :=
  plane_ext fun x => by simp

/-- Lane shift and rotation commute (R60). -/
theorem planeRotl_laneShift (d : LaneDir) (p : Plane) (t r : Nat) :
    planeRotl (laneShift d p t) r = laneShift d (planeRotl p r) t :=
  plane_ext fun x => by simp

theorem planeRotl_planeXor (p q : Plane) (r : Nat) :
    planeRotl (planeXor p q) r = planeXor (planeRotl p r) (planeRotl q r) :=
  plane_ext fun x => by simp

theorem laneShift_planeXor (d : LaneDir) (p q : Plane) (t : Nat) :
    laneShift d (planeXor p q) t = planeXor (laneShift d p t) (laneShift d q t) :=
  plane_ext fun x => by simp

@[simp] theorem laneShift_zeroPlane (d : LaneDir) (t : Nat) : laneShift d zeroPlane t = zeroPlane :=
  plane_ext fun x => by simp

@[simp] theorem planeRotl_zeroPlane (r : Nat) : planeRotl zeroPlane r = zeroPlane :=
  plane_ext fun x => by simp

/-- Two states with equal planes are equal. -/
theorem sponge_ext {s t : Sponge} (h0 : s.a0 = t.a0) (h1 : s.a1 = t.a1) (h2 : s.a2 = t.a2) :
    s = t := by
  cases s
  cases t
  simp_all

/-! ### The step mappings -/

/-- theta's plane E is linear in the parity plane. -/
theorem thetaEffect_planeXor (d : LaneDir) (p q : Plane) :
    thetaEffect d (planeXor p q) = planeXor (thetaEffect d p) (thetaEffect d q) := by
  apply plane_ext
  intro x
  simp only [thetaEffect, planeGet_planeXor, planeGet_planeRotl, planeGet_laneShift, rotl32_xor]
  ac_rfl

@[simp] theorem thetaEffect_zeroPlane (d : LaneDir) : thetaEffect d zeroPlane = zeroPlane := by
  simp [thetaEffect]

@[simp] theorem theta_zeroSponge (d : LaneDir) : theta d zeroSponge = zeroSponge := by
  simp [theta, parity, zeroSponge]

@[simp] theorem rhoWest_zeroSponge (d : LaneDir) : rhoWest d zeroSponge = zeroSponge := by
  simp [rhoWest, zeroSponge]

/-- permute is twelve rounds, RC[0] first and RC[11] last (R72, R73). -/
theorem permute_eq_foldl (cfg : Config) (s : Sponge) :
    permute cfg s = (List.finRange 12).foldl (roundFn cfg) s := by
  have h : List.finRange 12 = roundIndices := by decide
  rw [h, permute]

end Sys2Proof.Machine
end

