-- ==== Sys2Proof/Laws/Rate.lean ====
section
/-! SUPPORT. Byte order and the rate window (R27 to R32): words and their bytes, what each rate
primitive does to each rate byte, and that none touches the capacity. -/

namespace Sys2Proof

/-! ### Words and bytes -/

theorem le32_getLsbD (b0 b1 b2 b3 : Byte) (j : Nat) (hj : j < 32) :
    (le32 b0 b1 b2 b3).getLsbD j =
      if j < 8 then b0.getLsbD j
      else if j < 16 then b1.getLsbD (j - 8)
      else if j < 24 then b2.getLsbD (j - 16)
      else b3.getLsbD (j - 24) := by
  have far : ∀ (b : Byte) (k : Nat), 8 ≤ k → b.getLsbD k = false := fun b k h =>
    BitVec.getLsbD_of_ge b k h
  simp only [le32, BitVec.getLsbD_or, BitVec.getLsbD_setWidth, BitVec.getLsbD_shiftLeft]
  by_cases h1 : j < 8
  · simp [h1, hj, show j < 16 by omega, show j < 24 by omega]
  by_cases h2 : j < 16
  · simp [h1, h2, hj, show j < 24 by omega, far b0 j (by omega), show j - 8 < 32 by omega]
  by_cases h3 : j < 24
  · simp [h1, h2, h3, hj, far b0 j (by omega), far b1 (j - 8) (by omega), show j - 16 < 32 by omega]
  · simp [h1, h2, h3, hj, far b0 j (by omega), far b1 (j - 8) (by omega),
      far b2 (j - 16) (by omega), show j - 24 < 32 by omega]

/-- A word is `le32` of its own bytes. -/
theorem le32_of_bytes (w : Word) :
    le32 (w.setWidth 8) ((w >>> 8).setWidth 8) ((w >>> 16).setWidth 8) ((w >>> 24).setWidth 8) = w := by
  apply BitVec.eq_of_getLsbD_eq
  intro j hj
  rw [le32_getLsbD _ _ _ _ _ hj]
  split
  · simp [*]
  split
  · simp [show j - 8 < 8 by omega, show 8 + (j - 8) = j by omega]
  split
  · simp [show j - 16 < 8 by omega, show 16 + (j - 16) = j by omega]
  · simp [show j - 24 < 8 by omega, show 24 + (j - 24) = j by omega]

/-- The bytes of `le32` are its arguments. -/
theorem wordBytes_le32 (b0 b1 b2 b3 : Byte) : wordBytes (le32 b0 b1 b2 b3) = [b0, b1, b2, b3] := by
  have byte : ∀ (k : Nat) (b : Byte), (∀ j, j < 8 → (le32 b0 b1 b2 b3).getLsbD (k + j) = b.getLsbD j) →
      ((le32 b0 b1 b2 b3) >>> k).setWidth 8 = b := by
    intro k b h
    apply BitVec.eq_of_getLsbD_eq
    intro j hj
    simp [hj, h j hj]
  have e0 := byte 0 b0 fun j hj => by
    rw [le32_getLsbD _ _ _ _ _ (by omega)]
    simp [hj]
  have e1 := byte 8 b1 fun j hj => by
    rw [le32_getLsbD _ _ _ _ _ (by omega)]
    simp [show 8 + j < 16 by omega]
  have e2 := byte 16 b2 fun j hj => by
    rw [le32_getLsbD _ _ _ _ _ (by omega)]
    simp [show 16 + j < 24 by omega, show ¬ 16 + j < 16 by omega, show ¬ 16 + j < 8 by omega]
  have e3 := byte 24 b3 fun j hj => by
    rw [le32_getLsbD _ _ _ _ _ (by omega)]
    simp [show ¬ 24 + j < 24 by omega, show ¬ 24 + j < 16 by omega, show ¬ 24 + j < 8 by omega]
  simp only [BitVec.ushiftRight_zero] at e0
  simp [wordBytes, e0, e1, e2, e3]

@[simp] theorem wordBytes_length (w : Word) : (wordBytes w).length = 4 := rfl

theorem wordBytes_injective {v w : Word} (h : wordBytes v = wordBytes w) : v = w := by
  rw [← le32_of_bytes v, ← le32_of_bytes w]
  simp only [wordBytes, List.cons.injEq, and_true] at h
  rw [h.1, h.2.1, h.2.2.1, h.2.2.2]

theorem wordBytes_xor (v w : Word) :
    wordBytes (v ^^^ w) = List.zipWith (· ^^^ ·) (wordBytes v) (wordBytes w) := by
  simp [wordBytes, BitVec.ushiftRight_xor_distrib]

namespace Machine

/-! ### The bytes of a plane -/

@[simp] theorem planeBytes_length (p : Plane) : (planeBytes p).length = 16 := rfl

@[simp] theorem rateBytes_length (s : Sponge) : (rateBytes s).length = 16 := rfl

/-- Byte `j` of a plane is byte `j mod 4` of lane `j div 4` (R27). -/
theorem planeBytes_getD (p : Plane) (j : Nat) (hj : j < 16) :
    (planeBytes p).getD j 0 =
      ((planeGet p (Fin.ofNat 4 (j / 4))) >>> (8 * (j % 4))).setWidth 8 := by
  interval_cases j <;> rfl

theorem planeBytes_planeXor (p q : Plane) :
    planeBytes (planeXor p q) = List.zipWith (· ^^^ ·) (planeBytes p) (planeBytes q) := by
  simp [planeBytes, planeXor, wordBytes, BitVec.ushiftRight_xor_distrib]

theorem planeBytes_planeXor_getD (p q : Plane) (j : Nat) (hj : j < 16) :
    (planeBytes (planeXor p q)).getD j 0 = (planeBytes p).getD j 0 ^^^ (planeBytes q).getD j 0 := by
  have hp : j < (planeBytes p).length := hj
  have hq : j < (planeBytes q).length := hj
  simp [planeBytes_planeXor, List.getD_eq_getElem?_getD, List.getElem?_zipWith,
    List.getElem?_eq_getElem hp, List.getElem?_eq_getElem hq]

/-- Planes with equal bytes are equal. -/
theorem plane_ext_bytes {p q : Plane}
    (h : ∀ j, j < 16 → (planeBytes p).getD j 0 = (planeBytes q).getD j 0) : p = q := by
  have e : planeBytes p = planeBytes q := by
    apply List.ext_getElem (by simp)
    intro j hj _
    have hq : j < (planeBytes q).length := hj
    have hb := h j hj
    simpa [List.getD_eq_getElem?_getD, List.getElem?_eq_getElem hj, List.getElem?_eq_getElem hq] using hb
  simp only [planeBytes, List.append_assoc] at e
  obtain ⟨e0, e⟩ := List.append_inj e (by simp)
  obtain ⟨e1, e⟩ := List.append_inj e (by simp)
  obtain ⟨e2, e3⟩ := List.append_inj e (by simp)
  cases p
  cases q
  simp only [Plane.mk.injEq]
  exact ⟨wordBytes_injective e0, wordBytes_injective e1, wordBytes_injective e2, wordBytes_injective e3⟩

/-- The bytes of a block's words are the bytes of the block, missing bytes 0x00 (R28). -/
theorem planeBytes_blockPlane (blk : List Byte) (j : Nat) (hj : j < 16) :
    (planeBytes (blockPlane blk)).getD j 0 = blk.getD j 0 := by
  simp only [planeBytes, blockPlane, blockWord, wordBytes_le32]
  interval_cases j <;> rfl

/-- The padding mask is the value 0x01 in byte `m` (R31). -/
theorem planeBytes_padMask (m j : Nat) (hm : m < 16) (hj : j < 16) :
    (planeBytes (padMask m)).getD j 0 = if j = m then 1 else 0 := by
  interval_cases m <;> interval_cases j <;> rfl

/-- The domain mask is the domain byte in byte 15 (R32). -/
theorem planeBytes_domMask (dom : Byte) (j : Nat) (hj : j < 16) :
    (planeBytes (domMask dom)).getD j 0 = if j = 15 then dom else 0 := by
  have h : domWord dom = le32 0 0 0 dom := by simp [domWord, le32]
  have hb : planeBytes (domMask dom) = wordBytes 0 ++ wordBytes 0 ++ wordBytes 0 ++ [0, 0, 0, dom] := by
    simp only [domMask, laneMask, planeBytes, h, wordBytes_le32]
  rw [hb]
  interval_cases j <;> rfl

/-! ### The rate primitives -/

@[simp] theorem xorRate_a0 (p : Plane) (s : Sponge) : (xorRate p s).a0 = planeXor s.a0 p := rfl
@[simp] theorem xorRate_a1 (p : Plane) (s : Sponge) : (xorRate p s).a1 = s.a1 := rfl
@[simp] theorem xorRate_a2 (p : Plane) (s : Sponge) : (xorRate p s).a2 = s.a2 := rfl

/-- Two masks in a row are one mask. -/
theorem xorRate_xorRate (p q : Plane) (s : Sponge) :
    xorRate p (xorRate q s) = xorRate (planeXor q p) s :=
  sponge_ext (by simp [planeXor_assoc]) rfl rfl

/-- The rate primitives commute (R76). -/
theorem xorRate_comm (p q : Plane) (s : Sponge) : xorRate p (xorRate q s) = xorRate q (xorRate p s) := by
  rw [xorRate_xorRate, xorRate_xorRate, planeXor_comm]

/-- A mask changes each rate byte by its own byte. -/
theorem rateBytes_xorRate (p : Plane) (s : Sponge) (j : Nat) (hj : j < 16) :
    (rateBytes (xorRate p s)).getD j 0 = (rateBytes s).getD j 0 ^^^ (planeBytes p).getD j 0 :=
  planeBytes_planeXor_getD _ _ _ hj

@[simp] theorem rateRead_length (s : Sponge) (n : Nat) : (rateRead s n).length = min n 16 := by
  simp [rateRead]

@[simp] theorem rateRead_zero (s : Sponge) : rateRead s 0 = [] := rfl

/-- Reading all 16 bytes is reading the rate. -/
theorem rateRead_sixteen (s : Sponge) : rateRead s 16 = rateBytes s :=
  List.take_of_length_le (by simp)

/-- What is read depends on the rate words alone (R30). -/
theorem rateRead_congr {s t : Sponge} (h : s.a0 = t.a0) (n : Nat) : rateRead s n = rateRead t n := by
  simp [rateRead, rateBytes, h]

/-- Reading fewer bytes reads a prefix (R30). -/
theorem rateRead_take (s : Sponge) {a b : Nat} (h : a ≤ b) :
    (rateRead s b).take a = rateRead s a := by
  simp [rateRead, List.take_take, Nat.min_eq_left h]

end Machine

end Sys2Proof
end

