-- ==== Sys2Proof/Laws/State.lean ====
section
/-! SUPPORT. What each update of the state does to each field, and the initial values: no later proof
unfolds a record update. -/

namespace Sys2Proof.Machine

@[simp] theorem setSponge_sponge (x : Sponge) (s : State) : (setSponge x s).sponge = x := rfl
@[simp] theorem setSponge_phase (x : Sponge) (s : State) : (setSponge x s).phase = s.phase := rfl
@[simp] theorem setSponge_v (x : Sponge) (s : State) : (setSponge x s).v = s.v := rfl
@[simp] theorem setSponge_cfg (x : Sponge) (s : State) : (setSponge x s).cfg = s.cfg := rfl
@[simp] theorem setSponge_inbox (x : Sponge) (s : State) : (setSponge x s).inbox = s.inbox := rfl
@[simp] theorem setSponge_outbox (x : Sponge) (s : State) : (setSponge x s).outbox = s.outbox := rfl

@[simp] theorem setPhase_sponge (p : Phase) (s : State) : (setPhase p s).sponge = s.sponge := rfl
@[simp] theorem setPhase_phase (p : Phase) (s : State) : (setPhase p s).phase = p := rfl
@[simp] theorem setPhase_v (p : Phase) (s : State) : (setPhase p s).v = s.v := rfl
@[simp] theorem setPhase_cfg (p : Phase) (s : State) : (setPhase p s).cfg = s.cfg := rfl
@[simp] theorem setPhase_inbox (p : Phase) (s : State) : (setPhase p s).inbox = s.inbox := rfl
@[simp] theorem setPhase_outbox (p : Phase) (s : State) : (setPhase p s).outbox = s.outbox := rfl

@[simp] theorem setV_sponge (b : Bool) (s : State) : (setV b s).sponge = s.sponge := rfl
@[simp] theorem setV_phase (b : Bool) (s : State) : (setV b s).phase = s.phase := rfl
@[simp] theorem setV_v (b : Bool) (s : State) : (setV b s).v = b := rfl
@[simp] theorem setV_cfg (b : Bool) (s : State) : (setV b s).cfg = s.cfg := rfl
@[simp] theorem setV_inbox (b : Bool) (s : State) : (setV b s).inbox = s.inbox := rfl
@[simp] theorem setV_outbox (b : Bool) (s : State) : (setV b s).outbox = s.outbox := rfl

@[simp] theorem send_sponge (r : Packet) (s : State) : (send r s).sponge = s.sponge := rfl
@[simp] theorem send_phase (r : Packet) (s : State) : (send r s).phase = s.phase := rfl
@[simp] theorem send_v (r : Packet) (s : State) : (send r s).v = s.v := rfl
@[simp] theorem send_cfg (r : Packet) (s : State) : (send r s).cfg = s.cfg := rfl
@[simp] theorem send_inbox (r : Packet) (s : State) : (send r s).inbox = s.inbox := rfl
@[simp] theorem send_outbox (r : Packet) (s : State) : (send r s).outbox = s.outbox ++ [r] := rfl

@[simp] theorem setInbox_sponge (l : List Input) (s : State) : (setInbox l s).sponge = s.sponge := rfl
@[simp] theorem setInbox_phase (l : List Input) (s : State) : (setInbox l s).phase = s.phase := rfl
@[simp] theorem setInbox_v (l : List Input) (s : State) : (setInbox l s).v = s.v := rfl
@[simp] theorem setInbox_cfg (l : List Input) (s : State) : (setInbox l s).cfg = s.cfg := rfl
@[simp] theorem setInbox_inbox (l : List Input) (s : State) : (setInbox l s).inbox = l := rfl
@[simp] theorem setInbox_outbox (l : List Input) (s : State) : (setInbox l s).outbox = s.outbox := rfl

@[simp] theorem offer_sponge (p : Packet) (s : State) : (offer p s).sponge = s.sponge := rfl
@[simp] theorem offer_phase (p : Packet) (s : State) : (offer p s).phase = s.phase := rfl
@[simp] theorem offer_v (p : Packet) (s : State) : (offer p s).v = s.v := rfl
@[simp] theorem offer_cfg (p : Packet) (s : State) : (offer p s).cfg = s.cfg := rfl
@[simp] theorem offer_inbox (p : Packet) (s : State) : (offer p s).inbox = s.inbox ++ [.packet p] := rfl
@[simp] theorem offer_outbox (p : Packet) (s : State) : (offer p s).outbox = s.outbox := rfl

@[simp] theorem respond_sponge (st : Status) (pl : List Byte) (s : State) :
    (respond st pl s).sponge = s.sponge := rfl
@[simp] theorem respond_phase (st : Status) (pl : List Byte) (s : State) :
    (respond st pl s).phase = s.phase := rfl
@[simp] theorem respond_v (st : Status) (pl : List Byte) (s : State) :
    (respond st pl s).v = s.v := rfl
@[simp] theorem respond_cfg (st : Status) (pl : List Byte) (s : State) :
    (respond st pl s).cfg = s.cfg := rfl
@[simp] theorem respond_inbox (st : Status) (pl : List Byte) (s : State) :
    (respond st pl s).inbox = s.inbox := rfl
@[simp] theorem respond_outbox (st : Status) (pl : List Byte) (s : State) :
    (respond st pl s).outbox = s.outbox ++ [responsePacket st s.phase s.v pl] := rfl

@[simp] theorem respondError_sponge (st : Status) (s : State) :
    (respondError st s).sponge = s.sponge := rfl
@[simp] theorem respondError_phase (st : Status) (s : State) :
    (respondError st s).phase = s.phase := rfl
@[simp] theorem respondError_v (st : Status) (s : State) :
    (respondError st s).v = s.v := rfl
@[simp] theorem respondError_cfg (st : Status) (s : State) :
    (respondError st s).cfg = s.cfg := rfl
@[simp] theorem respondError_inbox (st : Status) (s : State) :
    (respondError st s).inbox = s.inbox := rfl
@[simp] theorem respondError_outbox (st : Status) (s : State) :
    (respondError st s).outbox = s.outbox ++ [responsePacket st s.phase s.v []] := rfl

@[simp] theorem applyReset_sponge (s : State) :
    (applyReset s).sponge = zeroSponge := rfl
@[simp] theorem applyReset_phase (s : State) :
    (applyReset s).phase = .idle := rfl
@[simp] theorem applyReset_v (s : State) :
    (applyReset s).v = false := rfl
@[simp] theorem applyReset_cfg (s : State) :
    (applyReset s).cfg = s.cfg := rfl
@[simp] theorem applyReset_inbox (s : State) :
    (applyReset s).inbox = s.inbox := rfl
@[simp] theorem applyReset_outbox (s : State) :
    (applyReset s).outbox = s.outbox := rfl

/-- Two states with equal fields are equal. -/
theorem state_ext {s t : State} (h1 : s.sponge = t.sponge) (h2 : s.phase = t.phase) (h3 : s.v = t.v)
    (h4 : s.cfg = t.cfg) (h5 : s.inbox = t.inbox) (h6 : s.outbox = t.outbox) : s = t := by
  cases s
  cases t
  simp_all

@[simp] theorem setInbox_self (s : State) : setInbox s.inbox s = s := rfl

end Sys2Proof.Machine
end

