-- ==== Sys2Proof/Laws/Duplex.lean ====
section
/-! SUPPORT. What absorb and squeeze can do (R76, R78), said once as recursions on the operand. -/

namespace Sys2Proof.Machine

@[simp] theorem absorb_nil (cfg : Config) (s : Sponge) (dom : Byte) :
    absorb cfg s [] dom = permute cfg (domXor dom s) := rfl

/-- A non-empty operand is absorbed block by block. -/
theorem absorb_of_ne_nil (cfg : Config) (s : Sponge) {data : List Byte} (dom : Byte)
    (h : data ≠ []) : absorb cfg s data dom = (blocks data).foldl (absorbBlock cfg dom) s := by
  have : data.isEmpty = false := by simpa using h
  simp [absorb, this]

/-- One block is absorbed by one permute. -/
theorem absorb_one_block (cfg : Config) (s : Sponge) {data : List Byte} (dom : Byte)
    (h : data ≠ []) (hl : data.length ≤ 16) :
    absorb cfg s data dom = absorbBlock cfg dom s data := by
  rw [absorb_of_ne_nil cfg s dom h, blocks_of_short h hl]
  rfl

/-- A full block in front of a non-empty operand is absorbed first. -/
theorem absorb_append_full (cfg : Config) (s : Sponge) {b data : List Byte} (dom : Byte)
    (hb : b.length = 16) (hd : data ≠ []) :
    absorb cfg s (b ++ data) dom = absorb cfg (absorbBlock cfg dom s b) data dom := by
  rw [absorb_of_ne_nil cfg _ dom hd, absorb_of_ne_nil cfg _ dom (by simp [hd]),
    blocks_append_full hb]
  rfl

/-- The mask one block puts on the rate before its permute (R76). -/
def injectMask (dom : Byte) (blk : List Byte) : Plane :=
  planeXor (if blk.length < 16 then planeXor (blockPlane blk) (padMask blk.length) else blockPlane blk)
    (domMask dom)

/-- Injecting a block is XORing one mask into the rate. -/
theorem injectBlock_eq (dom : Byte) (s : Sponge) (blk : List Byte) :
    injectBlock dom s blk = xorRate (injectMask dom blk) s := by
  simp only [injectBlock, injectMask, domXor, padXor, rateXor, rateLen]
  split <;> simp only [xorRate_xorRate]

/-- A block of at most 16 bytes: squeezing it leaves the state and reads the rate (R78 (a), (b)). -/
theorem squeeze_short (cfg : Config) (s : Sponge) {len : Nat} (dom : Byte) (h : len ≤ 16) :
    squeeze cfg s len dom = (s, rateRead s len) := by
  have : (len - 1) / 16 = 0 := by omega
  simp [squeeze, this, squeezeBlocks]

/-- More than 16 bytes: the rate, then DomXor and permute, then the rest (R78). -/
theorem squeeze_long (cfg : Config) (s : Sponge) {len : Nat} (dom : Byte) (h : 16 < len) :
    squeeze cfg s len dom =
      ((squeeze cfg (permute cfg (domXor dom s)) (len - 16) dom).1,
        rateRead s 16 ++ (squeeze cfg (permute cfg (domXor dom s)) (len - 16) dom).2) := by
  have : (len - 1) / 16 = (len - 16 - 1) / 16 + 1 := by omega
  simp [squeeze, this, squeezeBlocks]

/-- squeeze, by its length: every fact about it by induction on the length. -/
theorem squeeze_induction {P : Nat → Prop} (short : ∀ len, len ≤ 16 → P len)
    (long : ∀ len, 16 < len → P (len - 16) → P len) (len : Nat) : P len := by
  induction len using Nat.strongRecOn with
  | _ len ih =>
    by_cases h : len ≤ 16
    · exact short len h
    · exact long len (by omega) (ih _ (by omega))

/-- squeeze returns exactly as many bytes as are asked for (R78). -/
theorem squeeze_length (cfg : Config) (dom : Byte) (len : Nat) :
    ∀ s, (squeeze cfg s len dom).2.length = len := by
  induction len using squeeze_induction with
  | short len h =>
    intro s
    simp [squeeze_short cfg s dom h, h]
  | long len h ih =>
    intro s
    rw [squeeze_long cfg s dom h]
    simp only [List.length_append, rateRead_length, ih]
    omega

/-! ### The effects of the three commands, field by field -/

@[simp] theorem effectDupInit_cfg (s : State) : (effectDupInit s).1.cfg = s.cfg := rfl
@[simp] theorem effectDupInit_inbox (s : State) : (effectDupInit s).1.inbox = s.inbox := rfl
@[simp] theorem effectDupInit_outbox (s : State) : (effectDupInit s).1.outbox = s.outbox := rfl
@[simp] theorem effectDupInit_phase (s : State) : (effectDupInit s).1.phase = .duplex := rfl
@[simp] theorem effectDupInit_v (s : State) : (effectDupInit s).1.v = false := rfl
@[simp] theorem effectDupInit_sponge (s : State) : (effectDupInit s).1.sponge = zeroSponge := rfl
@[simp] theorem effectDupInit_output (s : State) : (effectDupInit s).2 = [] := rfl

section
variable (dom : Byte) (data : List Byte) (len : Nat) (s : State)

@[simp] theorem effectAbsorb_cfg : (effectAbsorb dom data s).1.cfg = s.cfg := rfl
@[simp] theorem effectAbsorb_inbox : (effectAbsorb dom data s).1.inbox = s.inbox := rfl
@[simp] theorem effectAbsorb_outbox : (effectAbsorb dom data s).1.outbox = s.outbox := rfl
@[simp] theorem effectAbsorb_phase : (effectAbsorb dom data s).1.phase = s.phase := rfl
@[simp] theorem effectAbsorb_v : (effectAbsorb dom data s).1.v = s.v := rfl
@[simp] theorem effectAbsorb_sponge :
    (effectAbsorb dom data s).1.sponge = absorb s.cfg s.sponge data dom := rfl
@[simp] theorem effectAbsorb_output : (effectAbsorb dom data s).2 = [] := rfl

@[simp] theorem effectSqueeze_cfg : (effectSqueeze dom len s).1.cfg = s.cfg := rfl
@[simp] theorem effectSqueeze_inbox : (effectSqueeze dom len s).1.inbox = s.inbox := rfl
@[simp] theorem effectSqueeze_outbox : (effectSqueeze dom len s).1.outbox = s.outbox := rfl
@[simp] theorem effectSqueeze_phase : (effectSqueeze dom len s).1.phase = s.phase := rfl
@[simp] theorem effectSqueeze_v : (effectSqueeze dom len s).1.v = s.v := rfl
@[simp] theorem effectSqueeze_sponge :
    (effectSqueeze dom len s).1.sponge = (squeeze s.cfg s.sponge len dom).1 := rfl
@[simp] theorem effectSqueeze_output :
    (effectSqueeze dom len s).2 = (squeeze s.cfg s.sponge len dom).2 := rfl

end

end Sys2Proof.Machine
end

