-- ==== Sys2Proof/Laws/Aead.lean ====
section
/-! SUPPORT. What the AEAD functions do to one chunk and to the whole message (R85, R87, R89), and the
effects of the three AEAD commands field by field. -/

namespace Sys2Proof.Machine

/-! ### xor_bytes (R62, R63) -/

@[simp] theorem xorBytes_nil_left (b : List Byte) : xorBytes [] b = [] := rfl

@[simp] theorem xorBytes_length (a b : List Byte) :
    (xorBytes a b).length = min a.length b.length := by
  simp [xorBytes]

/-- XORing the same string twice gives the first string back (R63). -/
theorem xorBytes_cancel (a k : List Byte) (h : a.length ≤ k.length) :
    xorBytes (xorBytes a k) k = a := by
  induction a generalizing k with
  | nil => rfl
  | cons x xs ih =>
    cases k with
    | nil => simp at h
    | cons y ys =>
      have e := ih ys (by simpa using h)
      simp only [xorBytes, List.zipWith_cons_cons] at e ⊢
      rw [e, BitVec.xor_assoc, BitVec.xor_self, BitVec.xor_zero]

theorem eq16_iff (a b : List Byte) : eq16 a b = true ↔ a = b := by simp [eq16]

/-! ### One chunk -/

@[simp] theorem encryptChunks_nil (cfg : Config) (s : Sponge) : encryptChunks cfg [] s = (s, []) := rfl

@[simp] theorem decryptChunks_nil (cfg : Config) (s : Sponge) : decryptChunks cfg [] s = (s, []) := rfl

/-- A chunk of 1 to 16 bytes: the keystream is the rate, and the plaintext chunk is absorbed (R87). -/
theorem encryptChunks_cons (cfg : Config) (p : List Byte) (ps : List (List Byte)) (s : Sponge)
    (h : p.length ≤ 16) :
    encryptChunks cfg (p :: ps) s =
      ((encryptChunks cfg ps (absorb cfg s p domAbsorb)).1,
        xorBytes p (rateRead s p.length) ++ (encryptChunks cfg ps (absorb cfg s p domAbsorb)).2) := by
  simp only [encryptChunks, squeeze_short cfg s domSqueeze h]

/-- A ciphertext chunk: the recovered plaintext chunk is absorbed (R89). -/
theorem decryptChunks_cons (cfg : Config) (c : List Byte) (cs : List (List Byte)) (s : Sponge)
    (h : c.length ≤ 16) :
    decryptChunks cfg (c :: cs) s =
      ((decryptChunks cfg cs (absorb cfg s (xorBytes c (rateRead s c.length)) domAbsorb)).1,
        xorBytes c (rateRead s c.length) ++
          (decryptChunks cfg cs (absorb cfg s (xorBytes c (rateRead s c.length)) domAbsorb)).2) := by
  simp only [decryptChunks, squeeze_short cfg s domSqueeze h]

/-- The ciphertext is as long as the plaintext (R87). -/
theorem encryptChunks_length (cfg : Config) : ∀ (ps : List (List Byte)) (s : Sponge),
    (∀ p ∈ ps, p.length ≤ 16) → (encryptChunks cfg ps s).2.length = ps.flatten.length
  | [], _, _ => rfl
  | p :: ps, s, h => by
    have hp : p.length ≤ 16 := h p (by simp)
    rw [encryptChunks_cons cfg p ps s hp]
    have ih := encryptChunks_length cfg ps (absorb cfg s p domAbsorb)
      fun q hq => h q (List.mem_cons_of_mem _ hq)
    simp only [List.length_append, xorBytes_length, rateRead_length, ih, List.flatten_cons]
    omega

/-- The recovered plaintext is as long as the ciphertext (R89). -/
theorem decryptChunks_length (cfg : Config) : ∀ (cs : List (List Byte)) (s : Sponge),
    (∀ c ∈ cs, c.length ≤ 16) → (decryptChunks cfg cs s).2.length = cs.flatten.length
  | [], _, _ => rfl
  | c :: cs, s, h => by
    have hc : c.length ≤ 16 := h c (by simp)
    rw [decryptChunks_cons cfg c cs s hc]
    have ih := decryptChunks_length cfg cs (absorb cfg s (xorBytes c (rateRead s c.length)) domAbsorb)
      fun q hq => h q (List.mem_cons_of_mem _ hq)
    simp only [List.length_append, xorBytes_length, rateRead_length, ih, List.flatten_cons]
    omega

/-- aead_encrypt: the tag is the rate after the last chunk, and the final squeeze leaves the state
(R87 (b), (d)). -/
theorem aeadEncrypt_eq (cfg : Config) (s : Sponge) (pt : List Byte) :
    aeadEncrypt cfg s pt =
      ((encryptChunks cfg (blocks pt) s).1, (encryptChunks cfg (blocks pt) s).2,
        rateBytes (encryptChunks cfg (blocks pt) s).1) := by
  simp only [aeadEncrypt, tagLen, squeeze_short cfg _ domSqueeze (Nat.le_refl 16), rateRead_sixteen]

/-- aead_decrypt: the verdict compares the rate after the last chunk with the supplied tag (R89). -/
theorem aeadDecrypt_eq (cfg : Config) (s : Sponge) (ct tag : List Byte) :
    aeadDecrypt cfg s ct tag =
      ((decryptChunks cfg (blocks ct) s).1, (decryptChunks cfg (blocks ct) s).2,
        eq16 (rateBytes (decryptChunks cfg (blocks ct) s).1) tag) := by
  simp only [aeadDecrypt, tagLen, squeeze_short cfg _ domSqueeze (Nat.le_refl 16), rateRead_sixteen,
    verdict]

theorem aeadConstruct_nil (cfg : Config) (key nonce : List Byte) :
    aeadConstruct cfg key nonce [] = absorb cfg zeroSponge (key ++ nonce) domAbsorb := rfl

theorem aeadConstruct_of_ne_nil (cfg : Config) (key nonce : List Byte) {ad : List Byte}
    (h : ad ≠ []) :
    aeadConstruct cfg key nonce ad =
      absorb cfg (absorb cfg zeroSponge (key ++ nonce) domAbsorb) ad domAbsorb := by
  have : ad.isEmpty = false := by simpa using h
  simp [aeadConstruct, this]

/-! ### The effects of the three commands, field by field -/

section
variable (key nonce ad pt tag ct : List Byte) (s : State)

@[simp] theorem effectAeadInit_cfg : (effectAeadInit key nonce ad s).1.cfg = s.cfg := rfl
@[simp] theorem effectAeadInit_inbox : (effectAeadInit key nonce ad s).1.inbox = s.inbox := rfl
@[simp] theorem effectAeadInit_outbox : (effectAeadInit key nonce ad s).1.outbox = s.outbox := rfl
@[simp] theorem effectAeadInit_phase : (effectAeadInit key nonce ad s).1.phase = .aeadInit := rfl
@[simp] theorem effectAeadInit_v : (effectAeadInit key nonce ad s).1.v = false := rfl
@[simp] theorem effectAeadInit_sponge :
    (effectAeadInit key nonce ad s).1.sponge = aeadConstruct s.cfg key nonce ad := rfl
@[simp] theorem effectAeadInit_output : (effectAeadInit key nonce ad s).2 = [] := rfl

@[simp] theorem effectEncrypt_cfg : (effectEncrypt pt s).1.cfg = s.cfg := rfl
@[simp] theorem effectEncrypt_inbox : (effectEncrypt pt s).1.inbox = s.inbox := rfl
@[simp] theorem effectEncrypt_outbox : (effectEncrypt pt s).1.outbox = s.outbox := rfl
@[simp] theorem effectEncrypt_phase : (effectEncrypt pt s).1.phase = .aeadFinal := rfl
@[simp] theorem effectEncrypt_v : (effectEncrypt pt s).1.v = s.v := rfl
@[simp] theorem effectEncrypt_sponge :
    (effectEncrypt pt s).1.sponge = (aeadEncrypt s.cfg s.sponge pt).1 := rfl
@[simp] theorem effectEncrypt_output :
    (effectEncrypt pt s).2 =
      (aeadEncrypt s.cfg s.sponge pt).2.1 ++ (aeadEncrypt s.cfg s.sponge pt).2.2 := rfl

@[simp] theorem effectDecrypt_cfg : (effectDecrypt tag ct s).1.cfg = s.cfg := rfl
@[simp] theorem effectDecrypt_inbox : (effectDecrypt tag ct s).1.inbox = s.inbox := rfl
@[simp] theorem effectDecrypt_outbox : (effectDecrypt tag ct s).1.outbox = s.outbox := rfl
@[simp] theorem effectDecrypt_phase : (effectDecrypt tag ct s).1.phase = .aeadFinal := rfl
@[simp] theorem effectDecrypt_v :
    (effectDecrypt tag ct s).1.v = (aeadDecrypt s.cfg s.sponge ct tag).2.2 := rfl
@[simp] theorem effectDecrypt_sponge :
    (effectDecrypt tag ct s).1.sponge = (aeadDecrypt s.cfg s.sponge ct tag).1 := rfl
@[simp] theorem effectDecrypt_output :
    (effectDecrypt tag ct s).2 = (aeadDecrypt s.cfg s.sponge ct tag).2.1 := rfl

end

end Sys2Proof.Machine
end

