-- ==== Sys2Proof/Laws/Chain.lean ====
section
/-! SUPPORT. Chains of "XOR a mask into the rate, permute" (R12, R24, R74). -/

namespace Sys2Proof

open Machine

@[simp] theorem rateChain_nil (cfg : Config) (s : Sponge) : rateChain cfg [] s = s := rfl

@[simp] theorem rateChain_cons (cfg : Config) (m : Plane) (ms : List Plane) (s : Sponge) :
    rateChain cfg (m :: ms) s = rateChain cfg ms (permute cfg (xorRate m s)) := rfl

theorem rateChain_append (cfg : Config) (as bs : List Plane) (s : Sponge) :
    rateChain cfg (as ++ bs) s = rateChain cfg bs (rateChain cfg as s) := by
  simp [rateChain]

/-- Absorbing blocks is a chain with one mask for each block. -/
theorem foldl_absorbBlock (cfg : Config) (dom : Byte) (bs : List (List Byte)) (s : Sponge) :
    bs.foldl (absorbBlock cfg dom) s = rateChain cfg (bs.map (injectMask dom)) s := by
  induction bs generalizing s with
  | nil => rfl
  | cons b bs ih => rw [List.foldl_cons, ih, List.map_cons, rateChain_cons, absorbBlock, injectBlock_eq]

end Sys2Proof
end

