-- ==== Sys2Proof/Laws/Command.lean ====
section
/-! SUPPORT. What one command can do (R50): exec is one shared operation on each command's own effect,
and it ends in one of three ways. -/

namespace Sys2Proof.Machine

/-- The effect and output of an accepted command. -/
def effectOf (i : Instr) : State → State × List Byte :=
  match i with
  | .dupInit _ _ => effectDupInit
  | .absorb dom _ payload => effectAbsorb dom payload
  | .squeeze dom len _ => effectSqueeze dom len.toNat
  | .aeadInit _ payload => effectAeadInit (keyOf payload) (nonceOf payload) (adOf payload)
  | .encrypt _ payload => effectEncrypt payload
  | .decrypt _ payload => effectDecrypt (tagOf payload) (ctOf payload)

theorem exec_eq_runCommand (i : Instr) (s : State) : exec i s = runCommand i (effectOf i) s := by
  cases i <;> rfl

@[simp] theorem effectOf_cfg (i : Instr) (s : State) : (effectOf i s).1.cfg = s.cfg := by
  cases i <;> rfl

@[simp] theorem effectOf_inbox (i : Instr) (s : State) : (effectOf i s).1.inbox = s.inbox := by
  cases i <;> rfl

@[simp] theorem effectOf_outbox (i : Instr) (s : State) : (effectOf i s).1.outbox = s.outbox := by
  cases i <;> rfl

/-- An accepted command: its effect, then one OK response (R50). -/
theorem exec_ok {i : Instr} {s : State} (ha : accepts i.opcode s.phase = true)
    (hi : inputOk s.cfg i = true) :
    exec i s = .next (respond .ok (effectOf i s).2 (effectOf i s).1) := by
  simp [exec_eq_runCommand, runCommand, ha, hi]

/-- A command the phase refuses (R98). -/
theorem exec_errPhase {i : Instr} {s : State} (ha : accepts i.opcode s.phase = false) :
    exec i s = .next (respondError .errPhase s) := by
  simp [exec_eq_runCommand, runCommand, ha]

/-- A command whose lengths are wrong (R99). -/
theorem exec_errInput {i : Instr} {s : State} (ha : accepts i.opcode s.phase = true)
    (hi : inputOk s.cfg i = false) : exec i s = .next (respondError .errInput s) := by
  simp [exec_eq_runCommand, runCommand, ha, hi]

/-- Everything a command can do (R50). -/
theorem exec_cases (i : Instr) (s : State) :
    (accepts i.opcode s.phase = true ∧ inputOk s.cfg i = true ∧
      exec i s = .next (respond .ok (effectOf i s).2 (effectOf i s).1)) ∨
    (accepts i.opcode s.phase = true ∧ inputOk s.cfg i = false ∧
      exec i s = .next (respondError .errInput s)) ∨
    (accepts i.opcode s.phase = false ∧ exec i s = .next (respondError .errPhase s)) := by
  by_cases ha : accepts i.opcode s.phase = true
  · by_cases hi : inputOk s.cfg i = true
    · exact .inl ⟨ha, hi, exec_ok ha hi⟩
    · rw [Bool.not_eq_true] at hi
      exact .inr (.inl ⟨ha, hi, exec_errInput ha hi⟩)
  · rw [Bool.not_eq_true] at ha
    exact .inr (.inr ⟨ha, exec_errPhase ha⟩)

/-- The engine's length test is well-formedness and the bound MAXLEN (R43, R45). -/
theorem inputOk_eq (cfg : Config) (i : Instr) :
    inputOk cfg i = (decide (i.len.toNat ≤ cfg.maxLen) && i.wellFormed) := by
  cases i <;> rfl

/-! ### Response packets (R46) -/

section
variable (st : Status) (p : Phase) (v : Bool) (pl : List Byte)

@[simp] theorem responsePacket_length : (responsePacket st p v pl).length = 8 + pl.length := by
  simp [responsePacket]
  omega

@[simp] theorem respStatus_responsePacket : respStatus (responsePacket st p v pl) = statusByte st := rfl
@[simp] theorem respPhase_responsePacket : respPhase (responsePacket st p v pl) = phaseByte p := rfl
@[simp] theorem respV_responsePacket : respV (responsePacket st p v pl) = vByte v := rfl
@[simp] theorem respPayload_responsePacket : respPayload (responsePacket st p v pl) = pl := rfl

@[simp] theorem respOlen_responsePacket : respOlen (responsePacket st p v pl) = headerQ1 pl :=
  le32_of_bytes _

/-- An empty payload has OLEN = 0. -/
@[simp] theorem headerQ1_nil : headerQ1 [] = 0 := by simp [headerQ1]

/-- The eight bytes of a response with no payload. -/
theorem responsePacket_nil :
    responsePacket st p v [] = [statusByte st, phaseByte p, vByte v, 0x00, 0x00, 0x00, 0x00, 0x00] := by
  simp [responsePacket, wordBytes]

theorem headerQ1_toNat {pl : List Byte} (h : pl.length < 2 ^ 32) : (headerQ1 pl).toNat = pl.length := by
  simp only [headerQ1, if_pos h, BitVec.toNat_ofNat]
  exact Nat.mod_eq_of_lt h

end

end Sys2Proof.Machine
end

