-- ==== Sys2Proof/Laws/Decode.lean ====
section
/-! SUPPORT. The decoder on the four shapes of a header (R48), and the parts of the encoder. -/

namespace Sys2Proof

@[simp] theorem opcodeOfByte_opcodeByte (o : Opcode) : opcodeOfByte (opcodeByte o) = some o := by
  cases o <;> rfl

/-- The opcode an OPC byte selects has that OPC byte. -/
theorem opcodeByte_of_opcodeOfByte {b : Byte} {o : Opcode} (h : opcodeOfByte b = some o) :
    opcodeByte o = b := by
  simpa using List.find?_some h

@[simp] theorem opcodeOfByte_10 : opcodeOfByte 0x10#8 = some .dupInit := rfl
@[simp] theorem opcodeOfByte_11 : opcodeOfByte 0x11#8 = some .absorb := rfl
@[simp] theorem opcodeOfByte_12 : opcodeOfByte 0x12#8 = some .squeeze := rfl
@[simp] theorem opcodeOfByte_20 : opcodeOfByte 0x20#8 = some .aeadInit := rfl
@[simp] theorem opcodeOfByte_21 : opcodeOfByte 0x21#8 = some .encrypt := rfl
@[simp] theorem opcodeOfByte_22 : opcodeOfByte 0x22#8 = some .decrypt := rfl

/-- The decoder on a packet with a whole header (R48). -/
theorem decode_header (opc dom r2 r3 n0 n1 n2 n3 : Byte) (pl : List Byte) :
    decode (opc :: dom :: r2 :: r3 :: n0 :: n1 :: n2 :: n3 :: pl) =
      match opcodeOfByte opc with
      | none => .error (.unassignedOpcode opc)
      | some o =>
        if r2 = 0 ∧ r3 = 0 then
          if takesDom o = true ∨ dom = 0 then .ok (buildInstr o dom (le32 n0 n1 n2 n3) pl)
          else .error (.domainNotZero dom)
        else .error .reservedNotZero := rfl

/-- A packet shorter than a header is no command (R48). -/
theorem decode_short {p : Packet} (h : p.length < 8) : decode p = .error .shortPacket := by
  match p with
  | [] | [_] | [_, _] | [_, _, _] | [_, _, _, _] | [_, _, _, _, _] | [_, _, _, _, _, _]
  | [_, _, _, _, _, _, _] => rfl
  | _ :: _ :: _ :: _ :: _ :: _ :: _ :: _ :: _ =>
    simp only [List.length_cons] at h
    omega

@[simp] theorem buildInstr_opcode (o : Opcode) (dom : Byte) (len : Word) (pl : List Byte) :
    (buildInstr o dom len pl).opcode = o := by
  cases o <;> rfl

@[simp] theorem buildInstr_len (o : Opcode) (dom : Byte) (len : Word) (pl : List Byte) :
    (buildInstr o dom len pl).len = len := by
  cases o <;> rfl

@[simp] theorem buildInstr_payload (o : Opcode) (dom : Byte) (len : Word) (pl : List Byte) :
    (buildInstr o dom len pl).payload = pl := by
  cases o <;> rfl

/-- A command is built from its own fields. -/
theorem buildInstr_self (i : Instr) : buildInstr i.opcode i.dom i.len i.payload = i := by
  cases i <;> rfl

@[simp] theorem encode_length (i : Instr) : (encode i).length = 8 + i.payload.length := by
  simp [encode]
  omega

end Sys2Proof
end

