-- ==== Sys2Proof/Laws/PerInstr.lean ====
section
/-! SUPPORT. One fact about every command as syntax: its encoding lies in its own row of the opcode
table (R42, R44). -/

namespace Sys2Proof.Laws.EncodingRow

/-- The first header word of a command's encoding selects the command's row, and the packet has 8
header bytes and the payload. -/
def Statement (i : Instr) : Prop :=
  (∃ w0, headerW0 (encode i) = some w0 ∧ rowSelects i.opcode w0 = true) ∧
    (encode i).length = 8 + i.payload.length

/-- A header with a command's OPC, RSV = 0, and DOM = 0 where it must be, selects its row. -/
theorem header_selects (o : Opcode) (dom : Byte) (h : takesDom o = true ∨ dom = 0) :
    rowSelects o (le32 (opcodeByte o) dom 0 0) = true := by
  have zero : ∀ o, rowSelects o (le32 (opcodeByte o) 0 0 0) = true := by
    intro o
    cases o <;> decide
  have free : ∀ dom : Byte, rowSelects .absorb (le32 (opcodeByte .absorb) dom 0 0) = true ∧
      rowSelects .squeeze (le32 (opcodeByte .squeeze) dom 0 0) = true := by decide
  rcases h with h | rfl
  · cases o
    case absorb => exact (free dom).1
    case squeeze => exact (free dom).2
    all_goals simp [takesDom] at h
  · exact zero o

theorem dupInit (len : Word) (payload : List Byte) : Statement (.dupInit len payload) :=
  ⟨⟨_, rfl, header_selects _ _ (.inr rfl)⟩, encode_length _⟩

theorem absorb (dom : Byte) (len : Word) (payload : List Byte) : Statement (.absorb dom len payload) :=
  ⟨⟨_, rfl, header_selects _ _ (.inl rfl)⟩, encode_length _⟩

theorem squeeze (dom : Byte) (len : Word) (payload : List Byte) :
    Statement (.squeeze dom len payload) :=
  ⟨⟨_, rfl, header_selects _ _ (.inl rfl)⟩, encode_length _⟩

theorem aeadInit (len : Word) (payload : List Byte) : Statement (.aeadInit len payload) :=
  ⟨⟨_, rfl, header_selects _ _ (.inr rfl)⟩, encode_length _⟩

theorem encrypt (len : Word) (payload : List Byte) : Statement (.encrypt len payload) :=
  ⟨⟨_, rfl, header_selects _ _ (.inr rfl)⟩, encode_length _⟩

theorem decrypt (len : Word) (payload : List Byte) : Statement (.decrypt len payload) :=
  ⟨⟨_, rfl, header_selects _ _ (.inr rfl)⟩, encode_length _⟩

end Sys2Proof.Laws.EncodingRow
end

