-- ==== Sys2Proof/Laws/Step.lean ====
section
/-! SUPPORT. What one step can do, by the input it takes; that every step goes on; and what a run of
steps adds. -/

namespace Sys2Proof.Machine

theorem step_of_nil {s : State} (h : s.inbox = []) : step s = .next s := by
  simp [step, takeInput, h]

theorem step_of_packet {s : State} {p : Packet} {rest : List Input} (h : s.inbox = .packet p :: rest) :
    step s = runPacket p (setInbox rest s) := by
  simp [step, takeInput, h]

theorem step_of_reset {s : State} {rest : List Input} (h : s.inbox = .reset :: rest) :
    step s = .next (applyReset (setInbox rest s)) := by
  simp [step, takeInput, h]

theorem step_of_cutByReset {s : State} {p : Packet} {rest : List Input}
    (h : s.inbox = .cutByReset p :: rest) : step s = .next (applyReset (setInbox rest s)) := by
  simp [step, takeInput, h]

theorem runPacket_of_ok {p : Packet} {i : Instr} (h : decode p = .ok i) (s : State) :
    runPacket p s = exec i s := by
  simp [runPacket, h]

theorem runPacket_of_error {p : Packet} {e : DecodeError} (h : decode p = .error e) (s : State) :
    runPacket p s = .next (respondError .errIllegal s) := by
  simp [runPacket, h]

/-- What the engine sends for a packet, and the state it goes to. -/
def afterPacket (p : Packet) (s : State) : State :=
  match decode p with
  | .error _ => respondError .errIllegal s
  | .ok i =>
    if accepts i.opcode s.phase = true then
      if inputOk s.cfg i = true then respond .ok (effectOf i s).2 (effectOf i s).1
      else respondError .errInput s
    else respondError .errPhase s

/-- The state after one input has been taken. -/
def afterInput (x : Input) (s : State) : State :=
  match x with
  | .packet p => afterPacket p s
  | .reset => applyReset s
  | .cutByReset _ => applyReset s

@[simp] theorem afterInput_cfg (x : Input) (s : State) : (afterInput x s).cfg = s.cfg := by
  cases x with
  | reset => rfl
  | cutByReset p => rfl
  | packet p =>
    simp only [afterInput, afterPacket]
    cases decode p with
    | error e => rfl
    | ok i => simp only; split <;> [split; skip] <;> simp

@[simp] theorem afterInput_inbox (x : Input) (s : State) : (afterInput x s).inbox = s.inbox := by
  cases x with
  | reset => rfl
  | cutByReset p => rfl
  | packet p =>
    simp only [afterInput, afterPacket]
    cases decode p with
    | error e => rfl
    | ok i => simp only; split <;> [split; skip] <;> simp

/-- What an input does depends on no input behind it (R36, R123). -/
theorem afterInput_setInbox (x : Input) (s : State) (l : List Input) :
    afterInput x (setInbox l s) = setInbox l (afterInput x s) := by
  cases x with
  | reset => rfl
  | cutByReset p => rfl
  | packet p =>
    simp only [afterInput, afterPacket]
    cases decode p with
    | error e => rfl
    | ok i =>
      simp only [setInbox_phase, setInbox_cfg]
      by_cases ha : accepts i.opcode s.phase = true
      · by_cases hi : inputOk s.cfg i = true
        · simp only [ha, hi, if_true]
          cases i <;> rfl
        · simp only [ha, hi, if_true]
          rfl
      · simp only [ha]
        rfl

theorem runPacket_eq (p : Packet) (s : State) : runPacket p s = .next (afterPacket p s) := by
  unfold runPacket afterPacket
  cases decode p with
  | error e => rfl
  | ok i => rcases exec_cases i s with ⟨ha, hi, e⟩ | ⟨ha, hi, e⟩ | ⟨ha, e⟩ <;> simp [*]

/-- Everything a step can do: wait with nothing offered, or carry out the oldest input. It never
stops. -/
theorem step_cases (s : State) :
    (s.inbox = [] ∧ step s = .next s) ∨
    (∃ x rest, s.inbox = x :: rest ∧ step s = .next (afterInput x (setInbox rest s))) := by
  cases h : s.inbox with
  | nil => exact .inl ⟨rfl, step_of_nil h⟩
  | cons x rest =>
    refine .inr ⟨x, rest, rfl, ?_⟩
    cases x with
    | packet p => rw [step_of_packet h, runPacket_eq]; rfl
    | reset => exact step_of_reset h
    | cutByReset p => exact step_of_cutByReset h

theorem step_of_cons {s : State} {x : Input} {rest : List Input} (h : s.inbox = x :: rest) :
    step s = .next (afterInput x (setInbox rest s)) := by
  rcases step_cases s with ⟨e, _⟩ | ⟨y, r, e, hs⟩
  · simp [h] at e
  · rw [h] at e
    cases e
    exact hs

theorem run_zero (s : State) : Host.Core.run Sys2Proof.core 0 s = .next s := by
  simp [Host.Core.run]

/-- A run begins with one step. -/
theorem run_succ {k : Nat} {s t : State} (h : step s = .next t) :
    Host.Core.run Sys2Proof.core (k + 1) s = Host.Core.run Sys2Proof.core k t := by
  have hc : Sys2Proof.core.step s = .next t := h
  simp [Host.Core.run, hc]

/-- A run takes the inputs one after another. -/
theorem run_cons {k : Nat} {s : State} {x : Input} {rest : List Input} (h : s.inbox = x :: rest) :
    Host.Core.run Sys2Proof.core (k + 1) s =
      Host.Core.run Sys2Proof.core k (afterInput x (setInbox rest s)) :=
  run_succ (step_of_cons h)

end Sys2Proof.Machine
end

