-- ==== Sys2Proof/Machine/Asm.lean ====
section
/-! DEFINITION. The written form of commands and responses (R51). It is for vectors and programs; no
meaning depends on it. -/

namespace Sys2Proof.Machine

/-- The hexadecimal digit of a number below 16, in capitals. -/
def hexDigit (n : Nat) : Char :=
  if n < 10 then Char.ofNat (48 + n) else Char.ofNat (55 + n)

/-- A byte as two hexadecimal digits. -/
def hexByte (b : Byte) : List Char := [hexDigit (b.toNat / 16), hexDigit (b.toNat % 16)]

/-- A byte string as `h'..'`, byte 0 first (R7). -/
def hexString (b : List Byte) : String := "h'" ++ String.ofList (b.flatMap hexByte) ++ "'"

/-- A domain byte as `0xNN`. -/
def hexDom (b : Byte) : String := "0x" ++ String.ofList (hexByte b)

/-- A command on one line (R51). -/
def asmCommand : Instr → String
  | .dupInit _ _ => "DUP_INIT"
  | .absorb dom _ p => "ABSORB " ++ hexDom dom ++ ", " ++ hexString p
  | .squeeze dom len _ => "SQUEEZE " ++ hexDom dom ++ ", " ++ Nat.repr len.toNat
  | .aeadInit _ p =>
    "AEAD_INIT key=" ++ hexString (keyOf p) ++ ", nonce=" ++ hexString (nonceOf p) ++ ", ad=" ++
      hexString (adOf p)
  | .encrypt _ p => "ENCRYPT " ++ hexString p
  | .decrypt _ p => "DECRYPT tag=" ++ hexString (tagOf p) ++ ", ct=" ++ hexString (ctOf p)

/-- The payload of an OK response to a command, as R51 writes it. -/
def asmOutput (o : Opcode) (v : Bool) (payload : List Byte) : String :=
  match o with
  | .dupInit => ""
  | .absorb => ""
  | .squeeze => " out=" ++ hexString payload
  | .aeadInit => ""
  | .encrypt =>
    " ct=" ++ hexString (payload.take (payload.length - tagLen)) ++ " tag=" ++
      hexString (payload.drop (payload.length - tagLen))
  | .decrypt => " pt=" ++ hexString payload ++ (if v then " V=1" else " V=0")

/-- The response to a command, written after `->` (R51). -/
def asmResponse (o : Opcode) (st : Status) (v : Bool) (payload : List Byte) : String :=
  match st with
  | .ok => "-> OK" ++ asmOutput o v payload
  | .errIllegal => "-> ERR_ILLEGAL"
  | .errPhase => "-> ERR_PHASE"
  | .errInput => "-> ERR_INPUT"

end Sys2Proof.Machine
end

