-- ==== Sys2Proof/Tests/Slice0.lean ====
section
/-! SUPPORT. Tests of the model against the spec's own numbers, each naming where they stand, and a
witness for the hypotheses of every statement that has any. -/

namespace Sys2Proof.Tests

open Sys2Proof.Machine

/-! ### Helpers -/

/-- A byte string from numbers. -/
def bytes (l : List Nat) : List Byte := l.map (BitVec.ofNat 8)

/-- A state from its twelve words, S[0] first. -/
def words (l : List Nat) : Sponge :=
  let w (i : Nat) : Word := BitVec.ofNat 32 (l.getD i 0)
  ⟨⟨w 0, w 1, w 2, w 3⟩, ⟨w 4, w 5, w 6, w 7⟩, ⟨w 8, w 9, w 10, w 11⟩⟩

/-- T, the test state of 41_permutation.md. -/
def stateT : Sponge :=
  words ((List.range 12).map fun i => (0x9E3779B9 * (i + 1)) % 2 ^ 32)

/-- The reset machine, put in a phase. -/
def inPhase (p : Phase) : State := { State.reset with phase := p }

/-- The reset machine with inputs offered. -/
def offered (l : List Input) : State := { State.reset with inbox := l }

/-- The next state, if there is one. -/
def after (o : Host.Outcome State Fault Refusal) : Option State :=
  match o with
  | .next t => some t
  | .fault _ => none
  | .refused _ => none

/-- The state words after a command. -/
def spongeAfter (o : Host.Outcome State Fault Refusal) : Option Sponge := (after o).map (·.sponge)

/-- The newest response after a command. -/
def responseAfter (o : Host.Outcome State Fault Refusal) : Option Packet :=
  (after o).bind (·.outbox.getLast?)

theorem next_of_after {o : Host.Outcome State Fault Refusal} {t : State} (h : after o = some t) :
    o = .next t := by
  cases o with
  | next u => exact congrArg _ (Option.some.inj h)
  | fault r => cases r
  | refused r => simp [after] at h

/-- The zero-key, zero-nonce session with no associated data, 95_test_vectors.md 5.1. -/
def zeroSession : Sponge :=
  words [0x48039D29, 0x9ABA82AB, 0xEB21639C, 0x1BFFE5C5, 0x18AA2E50, 0xF5732DF6, 0x9443C333,
    0x7BFB61BB, 0x376D98CE, 0xFDA8E519, 0x01352839, 0xF8A3AF1E]

/-- The state after D00's vector has been encrypted, 95_test_vectors.md 5.1. -/
def zeroFinal : Sponge :=
  words [0x1995FEC2, 0x5B93A0DB, 0xD1284ABB, 0xE1489F4D, 0x3B23F985, 0x9F3F617E, 0xA2D8C535,
    0xC6923EBB, 0x2A539AF9, 0x6C1FEFE5, 0xB9FCD359, 0xD3E69BCB]

/-- The tag of D00's vector, 95_test_vectors.md 5.1. -/
def zeroTag : List Byte :=
  bytes [0xC2, 0xFE, 0x95, 0x19, 0xDB, 0xA0, 0x93, 0x5B, 0xBB, 0x4A, 0x28, 0xD1, 0x4D, 0x9F, 0x48, 0xE1]

/-- An AEAD session with no message yet. -/
def session : State := { inPhase .aeadInit with sponge := zeroSession }

/-! ### Well-formedness: one ill-formed command for each check, refused (R43) -/

theorem test_wf_dupInit_len : (Instr.dupInit 1 []).wellFormed = false := by decide
theorem test_wf_dupInit_payload : (Instr.dupInit 0 [0]).wellFormed = false := by decide
theorem test_wf_absorb : (Instr.absorb 3 2 [0]).wellFormed = false := by decide
theorem test_wf_squeeze : (Instr.squeeze 1 1 [0]).wellFormed = false := by decide
theorem test_wf_aeadInit_short :
    (Instr.aeadInit 31 (List.replicate 31 0)).wellFormed = false := by decide
theorem test_wf_aeadInit_len :
    (Instr.aeadInit 33 (List.replicate 32 0)).wellFormed = false := by decide
theorem test_wf_encrypt : (Instr.encrypt 0 [0]).wellFormed = false := by decide
theorem test_wf_decrypt_short :
    (Instr.decrypt 15 (List.replicate 15 0)).wellFormed = false := by decide
theorem test_wf_decrypt_len : (Instr.decrypt 17 (List.replicate 16 0)).wellFormed = false := by decide
theorem test_wf_accepts :
    (Instr.dupInit 0 []).wellFormed = true ∧ (Instr.absorb 3 1 [0]).wellFormed = true ∧
    (Instr.squeeze 1 300 []).wellFormed = true ∧
    (Instr.aeadInit 32 (List.replicate 32 0)).wellFormed = true ∧
    (Instr.encrypt 1 [0]).wellFormed = true ∧
    (Instr.decrypt 16 (List.replicate 16 0)).wellFormed = true := by decide

/-! ### Decoding and encoding: words written out from R42 to R44 and R53 -/

theorem test_decode_dupInit : decode (bytes [0x10, 0, 0, 0, 0, 0, 0, 0]) = .ok (.dupInit 0 []) := rfl
theorem test_decode_absorb :
    decode (bytes [0x11, 0x03, 0, 0, 0x03, 0, 0, 0, 0xAA, 0xBB, 0xCC]) =
      .ok (.absorb 0x03 3 (bytes [0xAA, 0xBB, 0xCC])) := rfl
theorem test_decode_squeeze :
    decode (bytes [0x12, 0x01, 0, 0, 0x2C, 0x01, 0, 0]) = .ok (.squeeze 0x01 300 []) := rfl
theorem test_decode_aeadInit :
    decode (bytes ([0x20, 0, 0, 0, 0x20, 0, 0, 0] ++ List.replicate 32 0)) =
      .ok (.aeadInit 32 (bytes (List.replicate 32 0))) := rfl
theorem test_decode_encrypt :
    decode (bytes [0x21, 0, 0, 0, 0x04, 0, 0, 0, 0x74, 0x65, 0x73, 0x74]) =
      .ok (.encrypt 4 (bytes [0x74, 0x65, 0x73, 0x74])) := rfl
theorem test_decode_decrypt :
    decode (bytes ([0x22, 0, 0, 0, 0x14, 0, 0, 0] ++ List.range 20)) =
      .ok (.decrypt 20 (bytes (List.range 20))) := rfl
theorem test_encode_squeeze :
    encode (.squeeze 0x01 300 []) = bytes [0x12, 0x01, 0, 0, 0x2C, 0x01, 0, 0] := by decide
/-- 95_test_vectors.md section 8: E6, E3, E4b and E5. -/
theorem test_decode_illegal :
    decode (bytes [0x10, 0, 0]) = .error .shortPacket ∧
    decode (bytes [0x13, 0, 0, 0, 0, 0, 0, 0]) = .error (.unassignedOpcode 0x13) ∧
    decode (bytes [0x10, 0, 0, 0x80, 0, 0, 0, 0]) = .error .reservedNotZero ∧
    decode (bytes [0x10, 0x03, 0, 0, 0, 0, 0, 0]) = .error (.domainNotZero 3) :=
  ⟨rfl, rfl, rfl, rfl⟩
theorem test_table_words :
    decodeTableWord 32 0x10 = some (.dupInit 0 []) ∧
    decodeTableWord 32 0x311 = some (.absorb 0x03 0 []) ∧
    decodeTableWord 32 0x112 = some (.squeeze 0x01 0 []) ∧
    decodeTableWord 32 0x20 = some (.aeadInit 0 []) ∧
    decodeTableWord 32 0x21 = some (.encrypt 0 []) ∧
    decodeTableWord 32 0x22 = some (.decrypt 0 []) := by decide

/-! ### Algebra and permutation: 95_test_vectors.md sections 2 and 3 -/

theorem test_rotl32 :
    rotl32 0x80000001 14 = 0x00006000 ∧ rotl32 0x12345678 11 = 0xA2B3C091 ∧
    rotl32 0x12345678 32 = 0x12345678 := by decide
theorem test_lane_shift :
    laneShift .plus ⟨0xA, 0xB, 0xC, 0xD⟩ 1 = ⟨0xD, 0xA, 0xB, 0xC⟩ ∧
    laneShift .minus ⟨0xA, 0xB, 0xC, 0xD⟩ 1 = ⟨0xB, 0xC, 0xD, 0xA⟩ ∧
    laneShift .plus ⟨0xA, 0xB, 0xC, 0xD⟩ 2 = ⟨0xC, 0xD, 0xA, 0xB⟩ ∧
    laneShift .minus ⟨0xA, 0xB, 0xC, 0xD⟩ 4 = ⟨0xA, 0xB, 0xC, 0xD⟩ := by decide
theorem test_theta : theta .plus stateT =
    words [0x0624B15A, 0xB1EC6666, 0x01BCC73D, 0xD0284D5C, 0x8F06A87E, 0x38CE4F42, 0x889EFE19,
      0x594E6670, 0x17E08F62, 0xA3A8542E, 0x177890E5, 0xC26C1F14] := by decide +kernel
theorem test_chi : chi stateT =
    words [0x99263938, 0x18663360, 0x9AA67D28, 0x1844626C, 0x9926211C, 0x99661B64, 0x9BA67C2C,
      0x9922696C, 0x99E62718, 0x1A661368, 0x9EE67EF8, 0x1A00706C] := by decide +kernel
theorem test_round : roundFn defaultConfig stateT 0 =
    words [0x066EB132, 0xB3EC467A, 0x013ACF3F, 0xD0B0EB4D, 0xBADCECE4, 0x1F4D98F5, 0x70949EF6,
      0x916DF413, 0x0B6FBBC4, 0xF0EA0BE0, 0x7F30BF04, 0xA5557BC3] := by decide +kernel
theorem test_permute : permute defaultConfig stateT =
    words [0xB07E66DD, 0x65591BE5, 0xC299F6E8, 0x88817A1A, 0x6CBD8D2B, 0x6AD217AA, 0x9333ED51,
      0xCA00DA37, 0x99FFB9F0, 0x0CE8FA80, 0x5F4695B0, 0x492BC5A5] := by decide +kernel
/-- Section 3.4: the other lane direction. -/
theorem test_permute_minus : permute { defaultConfig with laneDir := .minus } zeroSponge =
    words [0xB706BDCA, 0x0489C432, 0x161C07DF, 0xF9C2B1CC, 0x06086BD7, 0x07178265, 0xDC3E1FEB,
      0xEACD699F, 0x5C07D507, 0x42B0CCF1, 0x5535CA83, 0xDDC2F630] := by decide +kernel
/-- Section 3.5: the value a chi with a complement would give. -/
theorem test_permute_negative : permute defaultConfig zeroSponge ≠
    words [0x89D5D88D, 0xA963FCBF, 0x1B232D19, 0xFFA5A014, 0x36B18106, 0xAFC7C1FE, 0xAEE57CBE,
      0xA77540BD, 0x2E86E870, 0xFEF5B7C9, 0x8B4FADF2, 0x5E4F4062] := by decide +kernel
/-- Section 2, RateXor, RateRead and PadXor. -/
theorem test_rate :
    let s := rateXor (bytes [1, 2, 3, 4, 5]) zeroSponge
    s = words [0x04030201, 5] ∧ rateRead s 5 = bytes [1, 2, 3, 4, 5] ∧
    padXor 5 s = words [0x04030201, 0x105] ∧
    padXor 15 zeroSponge = words [0, 0, 0, 0x01000000] := by decide +kernel
/-- Section 4.1, n = 17: two blocks, the second padded. -/
theorem test_absorb_two_blocks :
    absorb defaultConfig zeroSponge (bytes ((List.range 17).map (· + 1))) 0x03 =
      words [0x8EDA62B3, 0xD46D9C4A, 0x337DB2A5, 0x9318A1B3, 0x8D848DFF, 0xA8DF181F, 0x462C660B,
        0x36214365, 0x14325527, 0x34F1BED3, 0xC6C2B3B6, 0x6DAC8AD6] := by decide +kernel

/-! ### One step of each command -/

/-- R75. -/
theorem test_dupInit : responseAfter (exec (.dupInit 0 []) session) =
    some (bytes [0, 1, 0, 0, 0, 0, 0, 0]) := by decide +kernel
/-- Section 8, E9b. -/
theorem test_dupInit_errInput : responseAfter (exec (.dupInit 0 [0]) State.reset) =
    some (bytes [3, 0, 0, 0, 0, 0, 0, 0]) := by decide +kernel
/-- R77, the 15-byte case, where the padding and the domain byte meet. -/
theorem test_absorb :
    spongeAfter (exec (.absorb 0x03 15 (bytes ((List.range 15).map (· + 1)))) (inPhase .duplex)) =
      some (words [0x0026901C, 0xA314AB4E, 0xEDC362B4, 0xED920273, 0x0057203E, 0x560D56DD, 0x0E96C57E,
        0xFBA385A4, 0x636AB415, 0x9807526D, 0xA2B45C24, 0xA5FB5EB7]) := by decide +kernel
/-- Section 8, E9e: the phase is tested before the length. -/
theorem test_absorb_errPhase : responseAfter (exec (.absorb 0x03 2 [0]) State.reset) =
    some (bytes [2, 0, 0, 0, 0, 0, 0, 0]) := by decide +kernel
/-- R79, 17 bytes from S1: one permute, and 0xF1 is the first byte of the second block. -/
theorem test_squeeze :
    let s1 := absorb defaultConfig zeroSponge [] 0x03
    responseAfter (exec (.squeeze 0x01 17 []) { inPhase .duplex with sponge := s1 }) =
      some (bytes [0, 1, 0, 0, 17, 0, 0, 0, 0x91, 0x4C, 0x4A, 0xCB, 0x28, 0x83, 0x1E, 0xC5, 0x06, 0x01,
        0x4F, 0xEB, 0x04, 0x89, 0x7F, 0xDA, 0xF1]) := by decide +kernel
/-- Section 8, E11. -/
theorem test_squeeze_errInput : responseAfter (exec (.squeeze 0x01 1 [0]) (inPhase .duplex)) =
    some (bytes [3, 1, 0, 0, 0, 0, 0, 0]) := by decide +kernel
/-- R86. -/
theorem test_aeadInit :
    spongeAfter (exec (.aeadInit 32 (List.replicate 32 0)) State.reset) = some zeroSession := by
  decide +kernel
/-- Section 8, E7. -/
theorem test_aeadInit_errInput :
    responseAfter (exec (.aeadInit 31 (List.replicate 31 0)) State.reset) =
      some (bytes [3, 0, 0, 0, 0, 0, 0, 0]) := by decide +kernel
/-- R88, D00's vector. -/
theorem test_encrypt :
    responseAfter (exec (.encrypt 4 (bytes [0x74, 0x65, 0x73, 0x74])) session) =
      some (bytes [0, 5, 0, 0, 0x14, 0, 0, 0, 0x5D, 0xF8, 0x70, 0x3C] ++ zeroTag) := by decide +kernel
/-- Section 7, P2: the refused second message. -/
theorem test_encrypt_errPhase :
    responseAfter (exec (.encrypt 4 (bytes [0x74, 0x65, 0x73, 0x74])) (inPhase .aeadFinal)) =
      some (bytes [2, 5, 0, 0, 0, 0, 0, 0]) := by decide +kernel
/-- R90, the verified message. -/
theorem test_decrypt :
    after (exec (.decrypt 20 (zeroTag ++ bytes [0x5D, 0xF8, 0x70, 0x3C])) session) =
      some { session with
        sponge := zeroFinal, phase := .aeadFinal, v := true,
        outbox := [bytes [0, 5, 1, 0, 4, 0, 0, 0, 0x74, 0x65, 0x73, 0x74]] } := by decide +kernel
/-- R90, the flipped tag bit: STATUS = OK, the plaintext, and V = 0. -/
theorem test_decrypt_flipped :
    responseAfter (exec (.decrypt 20 (bytes [0xC3] ++ zeroTag.drop 1 ++ bytes [0x5D, 0xF8, 0x70, 0x3C]))
      session) = some (bytes [0, 5, 0, 0, 4, 0, 0, 0, 0x74, 0x65, 0x73, 0x74]) := by decide +kernel
/-- Section 8, E9d: RSV not zero and a wrong phase is ERR_ILLEGAL. -/
theorem test_step_illegal :
    responseAfter (step (offered [.packet (bytes [0x11, 3, 1, 0, 0, 0, 0, 0])])) =
      some (bytes [1, 0, 0, 0, 0, 0, 0, 0]) := by decide +kernel
/-- R51: the written form. -/
theorem test_asm :
    asmCommand (.absorb 0x03 3 (bytes [0xAA, 0xBB, 0xCC])) = "ABSORB 0x03, h'AABBCC'" ∧
    asmResponse .decrypt .ok true (bytes [0x74, 0x65, 0x73, 0x74]) = "-> OK pt=h'74657374' V=1" := by
  decide +kernel

/-! ### Witnesses: the hypotheses of each statement can be met -/

theorem witness_RotateLeftMovesEachBit : (0 : Nat) < 32 ∧ (31 : Nat) < 32 := by decide

theorem witness_PlaneOperationsActByLane :
    (((0 : Fin 4).val : Int) - laneSign .plus * ((1 : Nat) : Int)) % 4 = (3 : Fin 4).val ∧
    (((3 : Fin 4).val : Int) - laneSign .minus * ((2 : Nat) : Int)) % 4 = (1 : Fin 4).val := by decide

theorem witness_ByteStringsXorAndCompare :
    (bytes [1, 2]).length = (bytes [3, 4]).length ∧ 1 < (bytes [1, 2]).length ∧
    zeroTag.length = 16 ∧ (bytes (List.range 16)).length = 16 := by decide

theorem witness_ThetaByLane :
    (((0 : Fin 4).val : Int) - laneSign .plus) % 4 = (3 : Fin 4).val ∧
    (((3 : Fin 4).val : Int) - laneSign .minus) % 4 = (0 : Fin 4).val ∧
    parity ⟨⟨1, 2, 3, 4⟩, ⟨1, 2, 3, 4⟩, zeroPlane⟩ = zeroPlane := by decide

theorem witness_LinearStepsByLane :
    (((0 : Fin 4).val : Int) - laneSign .plus) % 4 = (3 : Fin 4).val ∧ (11 : Fin 12) ≠ 0 ∧
    (1 : Fin 12) ≠ 0 ∧ ({ defaultConfig with rc := Vector.replicate 12 0 } : Config).rc.get 5 = 0 := by
  decide

/-- The eight columns of R68, one in each of the low eight bits of lane 0. -/
theorem witness_ChiByColumn :
    let s := words [0xF0, 0, 0, 0, 0xCC, 0, 0, 0, 0xAA, 0, 0, 0]
    (List.range 8).map (fun i => ((planeGet s.a0 0).getLsbD i, (planeGet s.a1 0).getLsbD i,
      (planeGet s.a2 0).getLsbD i)) =
    [(false, false, false), (false, false, true), (false, true, false), (false, true, true),
      (true, false, false), (true, false, true), (true, true, false), (true, true, true)] := by decide

theorem witness_RoundsRunInOrder : ∃ f : Nat → Sponge,
    ∀ i : Fin 12, f (i.val + 1) = roundFn defaultConfig (f i.val) i :=
  ⟨fun n => (roundIndices.take n).foldl (roundFn defaultConfig) zeroSponge, by
    intro i
    fin_cases i <;> rfl⟩

theorem witness_RateBytesReadAndXor :
    ([] : List Byte).length ≤ 16 ∧ (List.replicate 16 (7 : Byte)).length ≤ 16 ∧ 15 < 16 ∧
    (16 : Nat) ≤ 16 := by decide

theorem witness_PaddingAndDomainTouchOneByte :
    (1 ≤ 1 ∧ 1 ≤ 15 ∧ 1 < 16) ∧ (1 ≤ 15 ∧ 15 ≤ 15 ∧ 15 < 16) := by decide

theorem witness_AbsorbBlockByBlock :
    (List.replicate 16 (7 : Byte)).length = 16 ∧
    (1 ≤ [(7 : Byte)].length ∧ [(7 : Byte)].length < 16) ∧
    (1 ≤ (List.replicate 15 (7 : Byte)).length ∧ (List.replicate 15 (7 : Byte)).length < 16) ∧
    16 < (List.replicate 17 (7 : Byte)).length := by decide

theorem witness_PaddingDoesNotSeparateOperands :
    (List.replicate 15 (7 : Byte)).length % 16 ≠ 0 ∧ (List.replicate 17 (7 : Byte)).length % 16 ≠ 0 := by
  decide

theorem witness_SqueezeBlockByBlock : 0 ≤ 16 ∧ (16 : Nat) ≤ 16 ∧ 16 < 17 := by decide

theorem witness_ShorterSqueezeIsAPrefix : 16 ≤ 17 ∧ (16 : Nat) ≤ 16 := by decide

theorem witness_DupInitConstructs :
    ((1 : Word) ≠ 0 ∧ [(0 : Byte)] ≠ []) ∧
    (∃ t u : State, exec (.dupInit 0 []) session = .next t ∧ exec (.dupInit 0 []) t = .next u) ∧
    ((0 : Byte) = 0 ∧ ¬ ((0 : Byte) = 0 ∧ (1 : Byte) = 0 ∧ (0 : Byte) = 0)) :=
  ⟨by decide,
    ⟨{ inPhase .duplex with outbox := [bytes [0, 1, 0, 0, 0, 0, 0, 0]] },
      { inPhase .duplex with
        outbox := [bytes [0, 1, 0, 0, 0, 0, 0, 0], bytes [0, 1, 0, 0, 0, 0, 0, 0]] },
      next_of_after (by decide +kernel), next_of_after (by decide +kernel)⟩,
    by decide⟩

theorem witness_AbsorbCommandAbsorbs :
    let data := bytes [1, 2]
    ((inPhase .duplex).phase = .duplex ∧ data.length = (2 : Word).toNat ∧
      (2 : Word).toNat ≤ (inPhase .duplex).cfg.maxLen) ∧
    State.reset.phase ≠ .duplex ∧
    ((inPhase .duplex).phase = .duplex ∧ data.length ≠ (3 : Word).toNat) ∧
    (({ inPhase .duplex with cfg := { defaultConfig with maxLen := 1 } } : State).cfg.maxLen <
      (2 : Word).toNat) ∧
    ((0 : Byte) = 0 ∧ ¬ ((0x80 : Byte) = 0 ∧ (0 : Byte) = 0)) := by decide +kernel

theorem witness_SqueezeCommandSqueezes :
    ((inPhase .duplex).phase = .duplex ∧ ([] : List Byte) = [] ∧
      (0xFFFFFFFF : Word).toNat ≤ (inPhase .duplex).cfg.maxLen) ∧
    State.reset.phase ≠ .duplex ∧
    [(0 : Byte)] ≠ [] ∧
    (({ inPhase .duplex with cfg := { defaultConfig with maxLen := 1 } } : State).cfg.maxLen <
      (2 : Word).toNat) ∧
    ((0 : Byte) = 0 ∧ ¬ ((0 : Byte) = 0 ∧ (1 : Byte) = 0)) := by decide +kernel

theorem witness_SessionConstruction :
    (bytes (List.range 16)).length = 16 ∧ (List.replicate 16 (0 : Byte)).length = 16 ∧
    bytes [0xA0] ≠ [] := by decide

theorem witness_AeadInitConstructs :
    (32 ≤ (32 : Word).toNat ∧ (List.replicate 32 (0 : Byte)).length = (32 : Word).toNat ∧
      (32 : Word).toNat ≤ State.reset.cfg.maxLen) ∧
    (31 : Word).toNat < 32 ∧ (List.replicate 32 (0 : Byte)).length ≠ (33 : Word).toNat ∧
    (({ defaultConfig with maxLen := 31 } : Config).maxLen < (32 : Word).toNat) ∧
    ((0 : Byte) = 0 ∧ ¬ ((3 : Byte) = 0 ∧ (0 : Byte) = 0 ∧ (0 : Byte) = 0)) := by decide +kernel

theorem witness_EncryptChunkByChunk :
    bytes [1] ≠ [] ∧ (bytes (List.range 16)).length = 16 ∧ 15 < 16 := by decide

theorem witness_EncryptCommandEncrypts :
    (session.phase = .aeadInit ∧ ([] : List Byte).length = (0 : Word).toNat ∧
      (0 : Word).toNat ≤ session.cfg.maxLen) ∧
    (inPhase .aeadFinal).phase ≠ .aeadInit ∧ (bytes [1]).length ≠ (0 : Word).toNat ∧
    (({ defaultConfig with maxLen := 0 } : Config).maxLen < (1 : Word).toNat) ∧
    ((0 : Byte) = 0 ∧ ¬ ((1 : Byte) = 0 ∧ (0 : Byte) = 0 ∧ (0 : Byte) = 0)) := by decide +kernel

theorem witness_DecryptChunkByChunk : bytes [1] ≠ [] := by decide

theorem witness_DecryptCommandDecrypts :
    (session.phase = .aeadInit ∧ 16 ≤ (16 : Word).toNat ∧ zeroTag.length = (16 : Word).toNat ∧
      (16 : Word).toNat ≤ session.cfg.maxLen) ∧
    State.reset.phase ≠ .aeadInit ∧ (15 : Word).toNat < 16 ∧ zeroTag.length ≠ (17 : Word).toNat ∧
    (({ defaultConfig with maxLen := 15 } : Config).maxLen < (16 : Word).toNat) ∧
    ((0 : Byte) = 0 ∧ ¬ ((0 : Byte) = 0 ∧ (0 : Byte) = 0 ∧ (9 : Byte) = 0)) := by decide +kernel

theorem witness_IllegalPacketIsRefused :
    (offered [.packet (bytes [0x13])]).inbox = .packet (bytes [0x13]) :: [] := rfl

/-- A command of each status: illegal, wrong phase, wrong length, accepted. -/
theorem witness_ErrorsAnswerAndChangeNothing :
    (offered [.packet (bytes [0x10, 0, 0])]).inbox = .packet (bytes [0x10, 0, 0]) :: [] ∧
    (∀ i, decode (bytes [0x10, 0, 0]) ≠ .ok i) ∧
    (decode (bytes [0x21, 0, 0, 0, 0, 0, 0, 0]) = .ok (.encrypt 0 []) ∧
      accepts Opcode.encrypt State.reset.phase = false) ∧
    (decode (bytes [0x10, 0, 0, 0, 1, 0, 0, 0]) = .ok (.dupInit 1 []) ∧
      accepts Opcode.dupInit State.reset.phase = true ∧
      inputOk State.reset.cfg (.dupInit 1 []) = false) ∧
    (decode (bytes [0x10, 0, 0, 0, 0, 0, 0, 0]) = .ok (.dupInit 0 []) ∧
      inputOk State.reset.cfg (.dupInit 0 []) = true) :=
  ⟨rfl, fun _ => nofun, ⟨rfl, rfl⟩, ⟨rfl, rfl, by decide +kernel⟩, rfl, by decide +kernel⟩

theorem witness_ResponsePacketLayout :
    (bytes [1, 2]).length < 2 ^ 32 ∧
    (offered [.packet dupInitPacket]).inbox = .packet dupInitPacket :: [] := ⟨by decide, rfl⟩

theorem witness_StepRunsTheDecodedCommand :
    (offered [.packet dupInitPacket, .reset]).inbox = .packet dupInitPacket :: [.reset] ∧
    decode dupInitPacket = .ok (.dupInit 0 []) := ⟨rfl, rfl⟩

theorem witness_WaitingHoldsTheState : session.inbox = [] := rfl

theorem witness_ResetGivesTheResetValues :
    (offered [.reset, .packet []]).inbox = .reset :: [.packet []] ∧
    (offered [.cutByReset dupInitPacket]).inbox = .cutByReset dupInitPacket :: [] := ⟨rfl, rfl⟩

theorem witness_OneResponsePerPacket :
    2 ≤ (offered [.packet dupInitPacket, .cutByReset dupInitPacket]).inbox.length := by decide

theorem witness_OfferedPacketsAreHeld :
    1 ≤ (offered [.packet dupInitPacket]).inbox.length := by decide

theorem witness_InstancesAreIndependent :
    [State.reset, session][1]? = some session := rfl

theorem witness_EncodeInvertsDecode : decode dupInitPacket = .ok (.dupInit 0 []) := rfl

theorem witness_DecoderFollowsTheOpcodeTable :
    8 ≤ dupInitPacket.length ∧ headerW0 dupInitPacket = some 0x10 ∧
    (0x0000FF11 : Word) &&& rowMask .absorb = rowMatch .absorb := by decide

/-- Each clause of the frame: the four commands, accepted, with a next state. -/
theorem witness_CommandFrame :
    (∃ t, exec (.absorb 3 0 []) (inPhase .duplex) = .next t) ∧
    (∃ t, exec (.squeeze 1 16 []) (inPhase .duplex) = .next t ∧ (16 : Word).toNat ≤ 16) ∧
    (∃ t, exec (.encrypt 0 []) session = .next t) ∧
    (∃ t, exec (.decrypt 16 zeroTag) session = .next t ∧ zeroTag.length ≤ 16) :=
  ⟨⟨_, rfl⟩, ⟨_, rfl, by decide⟩, ⟨_, rfl⟩, ⟨_, rfl, by decide⟩⟩

theorem witness_StepKeepsTheInvariant : ∃ t,
    EngineInv (offered [.packet dupInitPacket]) ∧ step (offered [.packet dupInitPacket]) = .next t :=
  ⟨{ inPhase .duplex with outbox := [bytes [0, 1, 0, 0, 0, 0, 0, 0]] }, by decide,
    next_of_after (by decide +kernel)⟩

theorem witness_PhaseTransitions : ∃ t, step (offered [.packet dupInitPacket]) = .next t :=
  ⟨{ inPhase .duplex with outbox := [bytes [0, 1, 0, 0, 0, 0, 0, 0]] },
    next_of_after (by decide +kernel)⟩

/-- Each clause: a reset, an accepted DUP_INIT and AEAD_INIT, an accepted DECRYPT, and steps that write
nothing: an accepted ABSORB and a refused packet. -/
theorem witness_VerdictWrites :
    takesReset (offered [.reset]) = true ∧ takesReset (offered [.cutByReset []]) = true ∧
    acceptedCommand (offered [.packet dupInitPacket]) = some (.dupInit 0 []) ∧
    acceptedCommand (offered [.packet (aeadInitPacket zeroTag zeroTag [])]) =
      some (.aeadInit 32 (zeroTag ++ zeroTag)) ∧
    acceptedCommand { session with inbox := [.packet (decryptPacket zeroTag [])] } =
      some (.decrypt 16 zeroTag) ∧
    acceptedCommand { inPhase .duplex with inbox := [.packet (absorbPacket 3 [])] } =
      some (.absorb 3 0 []) ∧
    takesReset (offered [.packet (encryptPacket [])]) = false ∧
    acceptedCommand (offered [.packet (encryptPacket [])]) = none := by decide +kernel

theorem witness_VerdictIsNeverTested : ∃ t, step (offered [.packet dupInitPacket]) = .next t :=
  witness_PhaseTransitions

/-- Two engines that differ in the capacity alone. -/
theorem witness_CapacityIsNotOutput :
    let s := inPhase .duplex
    let s' := { inPhase .duplex with sponge := words [0, 0, 0, 0, 1] }
    s'.sponge.a0 = s.sponge.a0 ∧ s'.phase = s.phase ∧ s'.v = s.v ∧ s'.cfg = s.cfg ∧
    (16 : Word).toNat ≤ 16 ∧ zeroTag.length ≤ 16 ∧ ([] : List Byte).length ≤ 16 := by decide

theorem witness_StateWordsChangeByRateMasks :
    (accepts (Instr.dupInit 0 []).opcode State.reset.phase = true ∧
      inputOk State.reset.cfg (.dupInit 0 []) = true) ∧
    (accepts (Instr.encrypt 0 []).opcode session.phase = true ∧
      inputOk session.cfg (.encrypt 0 []) = true) := by decide +kernel

/-- Two engines with different pasts take the same DUP_INIT; and a reset begins anew too. -/
theorem witness_NothingOfASessionReachesTheNext :
    let s := offered [.packet dupInitPacket, .packet (squeezePacket 1 4)]
    let s' := { session with inbox := [.packet dupInitPacket, .packet (squeezePacket 1 4)] }
    s'.cfg = s.cfg ∧ s.inbox = .packet dupInitPacket :: [.packet (squeezePacket 1 4)] ∧
    s'.inbox = .packet dupInitPacket :: [.packet (squeezePacket 1 4)] ∧
    beginsAnew s.cfg (.packet dupInitPacket) = true ∧ beginsAnew s.cfg .reset = true :=
  ⟨rfl, rfl, rfl, by decide +kernel, rfl⟩

theorem witness_TrustedResponseHasAMatchingTag :
    let s : State :=
      { session with inbox := [.packet (decryptPacket zeroTag (bytes [0x5D, 0xF8, 0x70, 0x3C]))] }
    ∃ t r, EngineInv s ∧ step s = .next t ∧ t.outbox = s.outbox ++ [r] ∧ trusted r = true :=
  ⟨{ session with
      sponge := zeroFinal, phase := .aeadFinal, v := true,
      outbox := [bytes [0, 5, 1, 0, 4, 0, 0, 0, 0x74, 0x65, 0x73, 0x74]] },
    bytes [0, 5, 1, 0, 4, 0, 0, 0, 0x74, 0x65, 0x73, 0x74], by decide +kernel,
    next_of_after (by decide +kernel), rfl, by decide⟩

theorem witness_EncryptedMessageVerifies :
    let key := bytes (List.range 16)
    let pt := bytes (List.range 17)
    key.length = 16 ∧ session.cfg = State.reset.cfg ∧
    32 + ([] : List Byte).length < 2 ^ 32 ∧
    32 + ([] : List Byte).length ≤ State.reset.cfg.maxLen ∧ 16 + pt.length < 2 ^ 32 ∧
    16 + pt.length ≤ State.reset.cfg.maxLen := by decide +kernel

theorem witness_ChangedTagNeverVerifies :
    List.replicate 16 (0 : Byte) ≠ (aeadEncrypt defaultConfig zeroSession []).2.2 := by decide +kernel

theorem witness_PaddedContinuationsShareATag :
    (bytes [0xA0]).length % 16 ≠ 0 ∧ (bytes (List.range 15)).length % 16 ≠ 0 := by decide

theorem witness_OneMessagePerSession :
    ((Instr.encrypt 0 []).opcode = .encrypt ∧ session.phase = .aeadInit ∧
      inputOk session.cfg (.encrypt 0 []) = true) ∧
    ((offered [.packet dupInitPacket]).phase ≠ .aeadInit ∧
      ∀ p, Input.packet p ∈ (offered [.packet dupInitPacket]).inbox →
        ∀ len payload, decode p ≠ .ok (.aeadInit len payload)) :=
  ⟨by decide +kernel, by decide, fun p h => by
    have e : p = dupInitPacket := by simpa [offered] using h
    subst e
    exact fun _ _ => nofun⟩

theorem witness_NonceReuseLeaks :
    let p := bytes (List.range 32)
    let q := bytes (List.range 16 ++ List.replicate 16 0)
    p.take (16 * 1) = q.take (16 * 1) ∧ 31 < 16 * (1 + 1) ∧ 31 < p.length ∧ 31 < q.length ∧ 15 < 16 := by
  decide

theorem witness_SessionByHandInDuplex :
    (bytes (List.range 16)).length = 16 ∧ 32 + (bytes [0xA0]).length < 2 ^ 32 ∧
    32 + (bytes [0xA0]).length ≤ State.reset.cfg.maxLen ∧
    (inPhase .duplex).phase = .duplex ∧ 16 ≤ (inPhase .duplex).cfg.maxLen := by decide +kernel

end Sys2Proof.Tests
end

section
/-! SUPPORT. Which way a step goes: it waits, takes a reset, refuses a packet or accepts a command; and
what an accepted command does to PHASE and V (R17, R18, R19, R50). -/

namespace Sys2Proof.Machine

/-! ### Refused and accepted packets -/

/-- A packet is accepted when it is a command, its phase is accepted and its lengths are right (R50). -/
theorem statusOf_eq_ok_iff (p : Packet) (s : State) :
    statusOf p s = .ok ↔
      ∃ i, decode p = .ok i ∧ accepts i.opcode s.phase = true ∧ inputOk s.cfg i = true := by
  unfold statusOf
  cases decode p with
  | error e => simp
  | ok i => cases ha : accepts i.opcode s.phase <;> cases hi : inputOk s.cfg i <;> simp [ha, hi]

theorem afterPacket_of_accepted {p : Packet} {i : Instr} {s : State} (hd : decode p = .ok i)
    (ha : accepts i.opcode s.phase = true) (hi : inputOk s.cfg i = true) :
    afterPacket p s = respond .ok (effectOf i s).2 (effectOf i s).1 := by
  simp [afterPacket, hd, ha, hi]

theorem afterPacket_of_refused {p : Packet} {s : State} (h : statusOf p s ≠ .ok) :
    afterPacket p s = respondError (statusOf p s) s := by
  unfold statusOf at h ⊢
  unfold afterPacket
  cases hd : decode p with
  | error e => rfl
  | ok i =>
    cases ha : accepts i.opcode s.phase <;> cases hi : inputOk s.cfg i <;>
      simp_all

@[simp] theorem afterInput_packet (p : Packet) (s : State) :
    afterInput (.packet p) s = afterPacket p s := rfl

/-- An input that is not answered is a reset, alone or during a command (R40, R114). -/
theorem isAnswered_eq_false_iff (x : Input) :
    isAnswered x = false ↔ x = .reset ∨ ∃ p, x = .cutByReset p := by
  cases x <;> simp [isAnswered]

theorem afterInput_of_not_answered {x : Input} (h : isAnswered x = false) (s : State) :
    afterInput x s = applyReset s := by
  rcases (isAnswered_eq_false_iff x).mp h with rfl | ⟨p, rfl⟩ <;> rfl

/-! ### The four ways of a step -/

/-- The four ways a step from `s` can go, with the state it goes to. -/
inductive StepKind (s : State) : State → Prop
  /-- Nothing is offered (R111). -/
  | waiting (hin : s.inbox = []) : StepKind s s
  /-- A reset, alone or during a command (R113, R114). -/
  | resetting {x : Input} {rest : List Input} (hin : s.inbox = x :: rest)
      (hx : isAnswered x = false) : StepKind s (applyReset (setInbox rest s))
  /-- A packet that ends with an error (R96). -/
  | refusing {p : Packet} {rest : List Input} (hin : s.inbox = .packet p :: rest)
      (hst : statusOf p s ≠ .ok) : StepKind s (respondError (statusOf p s) (setInbox rest s))
  /-- A command that is carried out (R50). -/
  | accepting {p : Packet} {rest : List Input} {i : Instr} (hin : s.inbox = .packet p :: rest)
      (hd : decode p = .ok i) (ha : accepts i.opcode s.phase = true)
      (hi : inputOk s.cfg i = true) :
      StepKind s (respond .ok (effectOf i (setInbox rest s)).2 (effectOf i (setInbox rest s)).1)

/-- Every step goes on, in one of the four ways. -/
theorem exists_step_kind (s : State) : ∃ t, step s = .next t ∧ StepKind s t := by
  rcases step_cases s with ⟨hin, hs⟩ | ⟨x, rest, hin, hs⟩
  · exact ⟨s, hs, .waiting hin⟩
  · refine ⟨_, hs, ?_⟩
    cases hx : isAnswered x with
    | false => exact afterInput_of_not_answered hx _ ▸ .resetting hin hx
    | true =>
      cases x with
      | reset => cases hx
      | cutByReset p => cases hx
      | packet p =>
        by_cases hst : statusOf p s = .ok
        · obtain ⟨i, hd, ha, hi⟩ := (statusOf_eq_ok_iff p s).mp hst
          rw [afterInput_packet, afterPacket_of_accepted (s := setInbox rest s) hd ha hi]
          exact .accepting hin hd ha hi
        · rw [afterInput_packet, afterPacket_of_refused (s := setInbox rest s) hst]
          exact .refusing hin hst

theorem step_kind {s t : State} (h : step s = .next t) : StepKind s t := by
  obtain ⟨u, hu, hk⟩ := exists_step_kind s
  obtain rfl : t = u := by simpa [h] using hu
  exact hk

/-! ### The phase and the verdict an accepted command leaves -/

/-- PHASE after an accepted command (R17). -/
def phaseAfter : Opcode → Phase
  | .dupInit => .duplex
  | .absorb => .duplex
  | .squeeze => .duplex
  | .aeadInit => .aeadInit
  | .encrypt => .aeadFinal
  | .decrypt => .aeadFinal

theorem effectOf_phase {i : Instr} {s : State} (ha : accepts i.opcode s.phase = true) :
    (effectOf i s).1.phase = phaseAfter i.opcode := by
  cases i with
  | absorb dom len payload | squeeze dom len payload => exact beq_iff_eq.mp ha
  | dupInit len payload | aeadInit len payload | encrypt len payload | decrypt len payload => rfl

/-- A construction is accepted in every phase (R18). -/
theorem accepts_of_constructs {o : Opcode} (h : constructs o = true) (p : Phase) :
    accepts o p = true := by
  cases o with
  | dupInit | aeadInit => rfl
  | absorb | squeeze | encrypt | decrypt => cases h

/-- A construction clears V (R19). -/
theorem effectOf_v_of_constructs {i : Instr} (h : constructs i.opcode = true) (s : State) :
    (effectOf i s).1.v = false := by
  cases i with
  | dupInit len payload | aeadInit len payload => rfl
  | absorb dom len payload | squeeze dom len payload | encrypt len payload | decrypt len payload =>
    cases h

/-- A construction has no output (R75, R86). -/
theorem effectOf_output_of_constructs {i : Instr} (h : constructs i.opcode = true) (s : State) :
    (effectOf i s).2 = [] := by
  cases i with
  | dupInit len payload | aeadInit len payload => rfl
  | absorb dom len payload | squeeze dom len payload | encrypt len payload | decrypt len payload =>
    cases h

/-- A construction begins from twelve zero words: the old state words do not matter (R24). -/
theorem effectOf_sponge_of_constructs {i : Instr} (h : constructs i.opcode = true) {s s' : State}
    (hc : s'.cfg = s.cfg) : (effectOf i s').1.sponge = (effectOf i s).1.sponge := by
  cases i with
  | dupInit len payload => rfl
  | aeadInit len payload => simp [effectOf, hc]
  | absorb dom len payload | squeeze dom len payload | encrypt len payload | decrypt len payload =>
    cases h

/-- Only the constructions and DECRYPT write V (R19). -/
theorem effectOf_v_of_not_written {i : Instr} (s : State) (hc : constructs i.opcode = false)
    (hd : i.opcode ≠ .decrypt) : (effectOf i s).1.v = s.v := by
  cases i with
  | absorb dom len payload | squeeze dom len payload | encrypt len payload => rfl
  | dupInit len payload | aeadInit len payload => cases hc
  | decrypt len payload => exact absurd rfl hd

end Sys2Proof.Machine
end

section
/-! SUPPORT. Every command's change of the state words as a chain of rate masks (R14, R74, R128). -/

namespace Sys2Proof

open Machine

/-! ### absorb and squeeze -/

/-- The masks of absorb: one for each block, and the domain byte alone for the empty operand (R76). -/
def absorbMasks (dom : Byte) (data : List Byte) : List Plane :=
  if data.isEmpty then [domMask dom] else (blocks data).map (injectMask dom)

theorem absorb_eq_rateChain (cfg : Config) (s : Sponge) (data : List Byte) (dom : Byte) :
    absorb cfg s data dom = rateChain cfg (absorbMasks dom data) s := by
  unfold absorb absorbMasks
  split
  · rfl
  · exact foldl_absorbBlock cfg dom (blocks data) s

/-- absorb runs max(1, ceil(n/16)) permutes (R76, R128). -/
theorem absorbMasks_length (dom : Byte) (data : List Byte) :
    (absorbMasks dom data).length = max 1 ((data.length + 15) / 16) := by
  cases data with
  | nil => rfl
  | cons b bs =>
    have : (absorbMasks dom (b :: bs)).length = (blocks (b :: bs)).length := by simp [absorbMasks]
    rw [this, blocks_length, List.length_cons]
    omega

/-- squeeze runs one permute between two blocks, each after the domain byte alone (R78, R128). -/
theorem squeeze_eq_rateChain (cfg : Config) (dom : Byte) (len : Nat) : ∀ s : Sponge,
    (squeeze cfg s len dom).1 =
      rateChain cfg (List.replicate ((len + 15) / 16 - 1) (domMask dom)) s := by
  induction len using squeeze_induction with
  | short len h =>
    intro s
    have : (len + 15) / 16 - 1 = 0 := by omega
    simp [squeeze_short cfg s dom h, this]
  | long len h ih =>
    intro s
    have : (len + 15) / 16 - 1 = (len - 16 + 15) / 16 - 1 + 1 := by omega
    rw [squeeze_long cfg s dom h, this, List.replicate_succ, rateChain_cons]
    exact ih (permute cfg (domXor dom s))

/-! ### The AEAD functions -/

/-- A chunk of 1 to 16 bytes is absorbed with one mask. -/
theorem absorb_chunk (cfg : Config) (s : Sponge) {p : List Byte} (dom : Byte) (hp : p ≠ [])
    (hl : p.length ≤ 16) : absorb cfg s p dom = permute cfg (xorRate (injectMask dom p) s) := by
  rw [absorb_one_block cfg s dom hp hl, absorbBlock, injectBlock_eq]

/-- The encryption loop is a chain with one mask for each plaintext chunk (R87, R128). -/
theorem encryptChunks_eq_rateChain (cfg : Config) (ps : List (List Byte)) (s : Sponge)
    (h : ∀ p ∈ ps, p ≠ [] ∧ p.length ≤ 16) :
    (encryptChunks cfg ps s).1 = rateChain cfg (ps.map (injectMask domAbsorb)) s := by
  induction ps generalizing s with
  | nil => rfl
  | cons p ps ih =>
    obtain ⟨hp, hl⟩ := h p List.mem_cons_self
    rw [encryptChunks_cons cfg p ps s hl, List.map_cons, rateChain_cons, absorb_chunk cfg s _ hp hl]
    exact ih _ fun q hq => h q (List.mem_cons_of_mem p hq)

theorem aeadEncrypt_eq_rateChain (cfg : Config) (s : Sponge) (pt : List Byte) :
    (aeadEncrypt cfg s pt).1 = rateChain cfg ((blocks pt).map (injectMask domAbsorb)) s := by
  rw [aeadEncrypt_eq]
  exact encryptChunks_eq_rateChain cfg _ s (blocks_size pt)

/-- The masks of the decryption loop: one for each recovered plaintext chunk (R89). -/
def decryptMasks (cfg : Config) : List (List Byte) → Sponge → List Plane
  | [], _ => []
  | c :: cs, s =>
    let m := injectMask domAbsorb (xorBytes c (rateRead s c.length))
    m :: decryptMasks cfg cs (permute cfg (xorRate m s))

theorem decryptMasks_length (cfg : Config) (cs : List (List Byte)) (s : Sponge) :
    (decryptMasks cfg cs s).length = cs.length := by
  induction cs generalizing s with
  | nil => rfl
  | cons c cs ih => simp [decryptMasks, ih]

theorem decryptChunks_eq_rateChain (cfg : Config) (cs : List (List Byte)) (s : Sponge)
    (h : ∀ c ∈ cs, c ≠ [] ∧ c.length ≤ 16) :
    (decryptChunks cfg cs s).1 = rateChain cfg (decryptMasks cfg cs s) s := by
  induction cs generalizing s with
  | nil => rfl
  | cons c cs ih =>
    obtain ⟨hc, hl⟩ := h c List.mem_cons_self
    have hlen : (xorBytes c (rateRead s c.length)).length = c.length := by simp [hl]
    have hp : xorBytes c (rateRead s c.length) ≠ [] := by
      rwa [← List.length_pos_iff, hlen, List.length_pos_iff]
    rw [decryptChunks_cons cfg c cs s hl, absorb_chunk cfg s _ hp (hlen.trans_le hl)]
    exact ih _ fun q hq => h q (List.mem_cons_of_mem c hq)

theorem aeadDecrypt_eq_rateChain (cfg : Config) (s : Sponge) (ct tag : List Byte) :
    (aeadDecrypt cfg s ct tag).1 = rateChain cfg (decryptMasks cfg (blocks ct) s) s := by
  rw [aeadDecrypt_eq]
  exact decryptChunks_eq_rateChain cfg _ s (blocks_size ct)

/-- The masks of session construction: key and nonce, then the associated data unless it is empty
(R85). -/
def constructMasks (key nonce ad : List Byte) : List Plane :=
  absorbMasks domAbsorb (key ++ nonce) ++ if ad.isEmpty then [] else absorbMasks domAbsorb ad

theorem aeadConstruct_eq_rateChain (cfg : Config) (key nonce ad : List Byte) :
    aeadConstruct cfg key nonce ad = rateChain cfg (constructMasks key nonce ad) zeroSponge := by
  unfold aeadConstruct constructMasks
  rw [rateChain_append, ← absorb_eq_rateChain]
  split
  · rfl
  · exact absorb_eq_rateChain ..

/-- Session construction runs two permutes, and one for each block of associated data (R85, R128). -/
theorem constructMasks_length {key nonce : List Byte} (ad : List Byte)
    (h : (key ++ nonce).length = 32) :
    (constructMasks key nonce ad).length = 2 + (ad.length + 15) / 16 := by
  rw [constructMasks, List.length_append, absorbMasks_length, h]
  cases ad with
  | nil => rfl
  | cons b bs =>
    rw [if_neg (by simp), absorbMasks_length, List.length_cons]
    omega

/-! ### The commands -/

/-- The masks of an accepted command, from the state that runs it. -/
def commandMasks (i : Instr) (cfg : Config) (s : Sponge) : List Plane :=
  match i with
  | .dupInit _ _ => []
  | .absorb dom _ p => absorbMasks dom p
  | .squeeze dom len _ => List.replicate ((len.toNat + 15) / 16 - 1) (domMask dom)
  | .aeadInit _ p => constructMasks (keyOf p) (nonceOf p) (adOf p)
  | .encrypt _ p => (blocks p).map (injectMask domAbsorb)
  | .decrypt _ p => decryptMasks cfg (blocks (ctOf p)) s

/-- The state words after an accepted command are a chain of its masks, from the old words or, for a
construction, from twelve zero words (R14, R24, R74). -/
theorem effectOf_sponge_eq_rateChain (i : Instr) (s : State) :
    (effectOf i s).1.sponge =
      rateChain s.cfg (commandMasks i s.cfg s.sponge)
        (if constructs i.opcode then zeroSponge else s.sponge) := by
  cases i with
  | dupInit len p => rfl
  | absorb dom len p => exact absorb_eq_rateChain ..
  | squeeze dom len p => exact squeeze_eq_rateChain ..
  | aeadInit len p => exact aeadConstruct_eq_rateChain ..
  | encrypt len p => exact aeadEncrypt_eq_rateChain ..
  | decrypt len p => exact aeadDecrypt_eq_rateChain _ _ (ctOf p) (tagOf p)

/-- An accepted AEAD_INIT carries a whole key and a whole nonce (R43). -/
theorem keyOf_nonceOf_length {cfg : Config} {len : Word} {p : List Byte}
    (h : inputOk cfg (.aeadInit len p) = true) : (keyOf p ++ nonceOf p).length = 32 := by
  have hlen : 32 ≤ p.length := by
    simp only [inputOk, keyLen, nonceLen, Bool.and_eq_true, decide_eq_true_eq, beq_iff_eq] at h
    omega
  simp only [keyOf, nonceOf, List.length_append, List.length_take, List.length_drop, keyLen, nonceLen]
  omega

/-- An accepted command runs the number of permutes the work table lists (R128). -/
theorem commandMasks_length {i : Instr} {cfg : Config} (s : Sponge) (h : inputOk cfg i = true) :
    (commandMasks i cfg s).length = permuteCalls i := by
  cases i with
  | dupInit len p => rfl
  | absorb dom len p => exact absorbMasks_length dom p
  | squeeze dom len p => simp [commandMasks, permuteCalls]
  | aeadInit len p =>
    have hlen := constructMasks_length (adOf p) (keyOf_nonceOf_length h)
    simpa [commandMasks, adOf, permuteCalls] using hlen
  | encrypt len p => simp [commandMasks, permuteCalls, blocks_length]
  | decrypt len p => simp [commandMasks, permuteCalls, decryptMasks_length, blocks_length, ctOf]

/-- Settles O49: the masks of an accepted command, and their number. -/
theorem stateWordsChangeByRateMasks : Obligations.StateWordsChangeByRateMasks := by
  intro i s ha hi
  exact ⟨_, commandMasks i s.cfg s.sponge, exec_ok ha hi, commandMasks_length s.sponge hi,
    effectOf_sponge_eq_rateChain i s⟩

end Sys2Proof
end

section
/-! SUPPORT. Two engines side by side: what a step does depends on S, PHASE and the configuration alone,
V is carried along and shown, and a construction or a reset forgets S, PHASE and V (R19, R20, R24). -/

namespace Sys2Proof.Machine

/-- Two states that agree on S, PHASE, the configuration and what is offered: they may differ in V and
in the responses sent. -/
structure AgreeButV (s s' : State) : Prop where
  sponge : s'.sponge = s.sponge
  phase : s'.phase = s.phase
  cfg : s'.cfg = s.cfg
  inbox : s'.inbox = s.inbox

/-- A response without its V byte. -/
def hideV (r : Packet) : List Byte × List Byte := (r.take 2, r.drop 3)

theorem hideV_responsePacket (st : Status) (p : Phase) (v v' : Bool) (pl : List Byte) :
    hideV (responsePacket st p v pl) = hideV (responsePacket st p v' pl) := rfl

/-- From `s` to `t` and from `s'` to `t'` side by side: the ends agree but for V and the responses added
agree but for the V byte; and if V was the same, V and the responses added are the same. -/
structure Alike (s s' t t' : State) : Prop where
  agree : AgreeButV t t'
  v : s'.v = s.v → t'.v = t.v
  responses : ∃ rs rs', t.outbox = s.outbox ++ rs ∧ t'.outbox = s'.outbox ++ rs' ∧
    rs'.map hideV = rs.map hideV ∧ (s'.v = s.v → rs' = rs)

theorem Alike.refl {s s' : State} (h : AgreeButV s s') : Alike s s' s s' :=
  ⟨h, id, [], [], by simp⟩

theorem Alike.trans {s s' t t' u u' : State} (h : Alike s s' t t') (k : Alike t t' u u') :
    Alike s s' u u' := by
  obtain ⟨rs, rs', e, e', hm, heq⟩ := h.responses
  obtain ⟨qs, qs', f, f', km, keq⟩ := k.responses
  refine ⟨k.agree, fun hv => k.v (h.v hv), rs ++ qs, rs' ++ qs', ?_, ?_, ?_, ?_⟩
  · rw [f, e, List.append_assoc]
  · rw [f', e', List.append_assoc]
  · rw [List.map_append, List.map_append, hm, km]
  · intro hv
    rw [heq hv, keq (h.v hv)]

theorem AgreeButV.setInbox {s s' : State} (h : AgreeButV s s') (l : List Input) :
    AgreeButV (setInbox l s) (setInbox l s') :=
  ⟨h.sponge, h.phase, h.cfg, rfl⟩

theorem AgreeButV.statusOf {s s' : State} (h : AgreeButV s s') (p : Packet) :
    statusOf p s' = statusOf p s := by
  simp only [Sys2Proof.statusOf, h.phase, h.cfg]

/-- Answering with the same status and payload, after updates that left what was sent, is alike. -/
theorem Alike.respond {s s' t t' : State} (st : Status) (pl : List Byte) (h : AgreeButV t t')
    (hv : s'.v = s.v → t'.v = t.v) (ho : t.outbox = s.outbox) (ho' : t'.outbox = s'.outbox) :
    Alike s s' (respond st pl t) (respond st pl t') := by
  refine ⟨⟨h.sponge, h.phase, h.cfg, h.inbox⟩, hv, [responsePacket st t.phase t.v pl],
    [responsePacket st t.phase t'.v pl], ?_, ?_, ?_, ?_⟩
  · rw [respond_outbox, ho]
  · rw [respond_outbox, ho', h.phase]
  · simp only [List.map_cons, List.map_nil, hideV_responsePacket st t.phase t'.v t.v pl]
  · intro e
    rw [hv e]

/-! A command's effect and output depend on S, PHASE and the configuration (R19, R106). -/

section
variable {s s' : State} (h : AgreeButV s s') (i : Instr)
include h

theorem AgreeButV.effectOf_sponge : (effectOf i s').1.sponge = (effectOf i s).1.sponge := by
  cases i <;> simp [Machine.effectOf, h.sponge, h.cfg]

theorem AgreeButV.effectOf_phase : (effectOf i s').1.phase = (effectOf i s).1.phase := by
  cases i <;> simp [Machine.effectOf, h.phase]

theorem AgreeButV.effectOf_output : (effectOf i s').2 = (effectOf i s).2 := by
  cases i <;> simp [Machine.effectOf, h.sponge, h.cfg]

theorem AgreeButV.effectOf_v (hv : s'.v = s.v) : (effectOf i s').1.v = (effectOf i s).1.v := by
  cases i <;> simp [Machine.effectOf, h.sponge, h.cfg, hv]

theorem AgreeButV.effectOf : AgreeButV (effectOf i s).1 (effectOf i s').1 where
  sponge := h.effectOf_sponge i
  phase := h.effectOf_phase i
  cfg := by rw [effectOf_cfg, effectOf_cfg, h.cfg]
  inbox := by rw [effectOf_inbox, effectOf_inbox, h.inbox]

end

/-- Carrying out the same input is alike. -/
theorem AgreeButV.afterInput {s s' : State} (h : AgreeButV s s') (x : Input) :
    Alike s s' (afterInput x s) (afterInput x s') := by
  cases hx : isAnswered x with
  | false =>
    rw [afterInput_of_not_answered hx, afterInput_of_not_answered hx]
    exact ⟨⟨rfl, rfl, h.cfg, h.inbox⟩, fun _ => rfl, [], [], by simp⟩
  | true =>
    cases x with
    | reset | cutByReset p => cases hx
    | packet p =>
      rw [afterInput_packet, afterInput_packet]
      by_cases hst : Sys2Proof.statusOf p s = .ok
      · obtain ⟨i, hd, ha, hi⟩ := (statusOf_eq_ok_iff p s).mp hst
        rw [afterPacket_of_accepted hd ha hi,
          afterPacket_of_accepted hd (h.phase ▸ ha) (h.cfg ▸ hi), h.effectOf_output i]
        exact .respond .ok _ (h.effectOf i) (h.effectOf_v i) (effectOf_outbox i s) (effectOf_outbox i s')
      · rw [afterPacket_of_refused hst, afterPacket_of_refused (h.statusOf p ▸ hst), h.statusOf p]
        exact .respond _ [] h id rfl rfl

/-- One step from two states that agree is alike. -/
theorem AgreeButV.step {s s' : State} (h : AgreeButV s s') :
    ∃ t t', step s = .next t ∧ step s' = .next t' ∧ Alike s s' t t' := by
  rcases step_cases s with ⟨hin, hs⟩ | ⟨x, rest, hin, hs⟩
  · exact ⟨s, s', hs, step_of_nil (h.inbox.trans hin), .refl h⟩
  · have k := (h.setInbox rest).afterInput x
    exact ⟨_, _, hs, step_of_cons (h.inbox.trans hin), k.agree, k.v, k.responses⟩

/-- Runs of any length from two states that agree are alike. -/
theorem AgreeButV.run (k : Nat) {s s' : State} (h : AgreeButV s s') :
    ∃ t t', Host.Core.run Sys2Proof.core k s = .next t ∧
      Host.Core.run Sys2Proof.core k s' = .next t' ∧ Alike s s' t t' := by
  induction k generalizing s s' with
  | zero => exact ⟨s, s', run_zero s, run_zero s', .refl h⟩
  | succ k ih =>
    obtain ⟨u, u', hu, hu', hfirst⟩ := h.step
    obtain ⟨t, t', ht, ht', hrest⟩ := ih hfirst.agree
    exact ⟨t, t', (run_succ hu).trans ht, (run_succ hu').trans ht', hfirst.trans hrest⟩

/-! ### Beginning anew -/

/-- A packet begins anew when it is a construction whose lengths are right (R24). -/
theorem beginsAnew_packet_iff (cfg : Config) (p : Packet) :
    beginsAnew cfg (.packet p) = true ↔
      ∃ i, decode p = .ok i ∧ constructs i.opcode = true ∧ inputOk cfg i = true := by
  cases hd : decode p <;> simp [beginsAnew, hd]

/-- Whatever two engines with one configuration held, an input that begins anew leaves them with the
same S, PHASE and V, and they have sent the same (R20, R24). -/
theorem beginsAnew_forgets {x : Input} {s s' : State} (hx : beginsAnew s.cfg x = true)
    (hc : s'.cfg = s.cfg) (hin : s'.inbox = s.inbox) :
    AgreeButV (afterInput x s) (afterInput x s') ∧ (afterInput x s').v = (afterInput x s).v ∧
      ∃ rs, (afterInput x s).outbox = s.outbox ++ rs ∧
        (afterInput x s').outbox = s'.outbox ++ rs := by
  cases ha : isAnswered x with
  | false =>
    rw [afterInput_of_not_answered ha, afterInput_of_not_answered ha]
    exact ⟨⟨rfl, rfl, hc, hin⟩, rfl, [], by simp⟩
  | true =>
    cases x with
    | reset | cutByReset p => cases ha
    | packet p =>
      obtain ⟨i, hd, hcon, hi⟩ := (beginsAnew_packet_iff s.cfg p).mp hx
      have hacc := accepts_of_constructs hcon
      have hphase : ∀ u : State, (effectOf i u).1.phase = phaseAfter i.opcode :=
        fun u => effectOf_phase (hacc u.phase)
      rw [afterInput_packet, afterInput_packet, afterPacket_of_accepted hd (hacc _) hi,
        afterPacket_of_accepted hd (hacc _) (hc ▸ hi)]
      refine ⟨⟨effectOf_sponge_of_constructs hcon hc, ?_, ?_, ?_⟩, ?_,
        [responsePacket .ok (phaseAfter i.opcode) false []], ?_, ?_⟩ <;>
        simp [hphase, hc, hin, effectOf_v_of_constructs hcon, effectOf_output_of_constructs hcon]

/-- Settles O50: the first input makes the two engines agree, and then their runs are alike. -/
theorem nothingOfASessionReachesTheNext : Obligations.NothingOfASessionReachesTheNext := by
  intro s s' x rest k hc hin hin' hx
  obtain ⟨hag, hv, rs, ho, ho'⟩ :=
    beginsAnew_forgets (s := setInbox rest s) (s' := setInbox rest s') hx hc rfl
  obtain ⟨t, t', ht, ht', halike⟩ := hag.run k
  obtain ⟨qs, qs', e, e', -, heq⟩ := halike.responses
  refine ⟨t, t', rs ++ qs, (run_cons hin).trans ht, (run_cons hin').trans ht',
    halike.agree.sponge, halike.agree.phase, halike.v hv, ?_, ?_⟩
  · rw [e, ho, setInbox_outbox, List.append_assoc]
  · rw [e', ho', heq hv, setInbox_outbox, List.append_assoc]

/-- Settles O47: two states that differ in V alone agree, so their steps are alike. -/
theorem verdictIsNeverTested : Obligations.VerdictIsNeverTested := by
  intro s t b hstep
  have hag : AgreeButV s (setV b s) := ⟨rfl, rfl, rfl, rfl⟩
  obtain ⟨u, t', hu, hu', halike⟩ := hag.step
  obtain rfl : t = u := by simpa [hstep] using hu
  obtain ⟨rs, rs', e, e', hm, -⟩ := halike.responses
  exact ⟨t', rs, rs', hu', halike.agree.sponge, halike.agree.phase, halike.agree.inbox,
    halike.agree.cfg, e, e', hm⟩

end Sys2Proof.Machine
end

section
/-! SUPPORT. The invariant of a run, and the writes of PHASE and V by one step (R16, R17, R19, R23). -/

namespace Sys2Proof.Machine

/-! ### Responses are well formed -/

/-- What `respond` sends from a held phase is a well-formed response (R46, R48). -/
theorem responseWellFormed_responsePacket {st : Status} {p : Phase} (v : Bool) {pl : List Byte}
    (hp : heldPhase p = true) (hpl : st = .ok ∨ pl = []) :
    responseWellFormed (responsePacket st p v pl) = true := by
  have hstatus : statusByte st ≤ 3 := by cases st <;> decide
  have hphase :
      (phaseByte p == 0 || phaseByte p == 1 || phaseByte p == 2 || phaseByte p == 5) = true := by
    cases p with
    | idle | duplex | aeadInit | aeadFinal => rfl
    | aeadEnc | aeadDec => cases hp
  have hv : vByte v ≤ 1 := by cases v <;> decide
  have hpayload : (statusByte st == 0 || pl.isEmpty) = true := by
    rcases hpl with rfl | rfl
    · rfl
    · exact Bool.or_true _
  have holen : (decide (2 ^ 32 ≤ pl.length) || (headerQ1 pl).toNat == pl.length) = true := by
    by_cases h : 2 ^ 32 ≤ pl.length
    · rw [decide_eq_true h, Bool.true_or]
    · rw [headerQ1_toNat (Nat.lt_of_not_le h), beq_self_eq_true, Bool.or_true]
  simp only [responseWellFormed, responsePacket_length, respStatus_responsePacket,
    respPhase_responsePacket, respV_responsePacket, respPayload_responsePacket,
    respOlen_responsePacket, Bool.and_eq_true]
  exact ⟨⟨⟨⟨⟨⟨decide_eq_true (Nat.le_add_right 8 _), decide_eq_true hstatus⟩, hphase⟩,
    decide_eq_true hv⟩, rfl⟩, hpayload⟩, holen⟩

/-! ### The invariant -/

theorem heldPhase_phaseAfter (o : Opcode) : heldPhase (phaseAfter o) = true := by cases o <;> rfl

theorem phaseAfter_ne_idle (o : Opcode) : phaseAfter o ≠ .idle := by cases o <;> exact nofun

/-- An accepted command that leaves V set leaves AEAD_FINAL: the constructions clear V, and the phase
that accepts ABSORB or SQUEEZE is not AEAD_FINAL (R17, R19). -/
theorem effectOf_final_of_v {i : Instr} {s : State} (ha : accepts i.opcode s.phase = true)
    (hs : s.v = true → s.phase = .aeadFinal) (hv : (effectOf i s).1.v = true) :
    phaseAfter i.opcode = .aeadFinal := by
  cases i with
  | dupInit len p | aeadInit len p => cases hv
  | absorb dom len p | squeeze dom len p =>
    have hdup : s.phase = .duplex := beq_iff_eq.mp ha
    exact absurd (hdup.symm.trans (hs hv)) nofun
  | encrypt len p | decrypt len p => rfl

/-- Answering keeps the invariant, when the phase, the state words and V meet it. -/
theorem engineInv_respond {st : Status} {pl : List Byte} {s : State} (hs : EngineInv s)
    (hpl : st = .ok ∨ pl = []) : EngineInv (respond st pl s) := by
  obtain ⟨hheld, hidle, hfinal, hout⟩ := hs
  refine ⟨hheld, hidle, hfinal, fun r hr => ?_⟩
  rcases List.mem_append.mp hr with hr | hr
  · exact hout r hr
  · rw [List.mem_singleton.mp hr]
    exact responseWellFormed_responsePacket s.v hheld hpl

theorem engineInv_effectOf {i : Instr} {s : State} (hs : EngineInv s)
    (ha : accepts i.opcode s.phase = true) : EngineInv (effectOf i s).1 := by
  obtain ⟨-, -, hfinal, hout⟩ := hs
  have hphase := effectOf_phase ha
  refine ⟨hphase ▸ heldPhase_phaseAfter _, fun h => ?_, fun h => ?_, ?_⟩
  · exact absurd (hphase.symm.trans h) (phaseAfter_ne_idle _)
  · exact hphase.trans (effectOf_final_of_v ha hfinal h)
  · rwa [effectOf_outbox]

theorem engineInv_applyReset {s : State} (hs : EngineInv s) : EngineInv (applyReset s) := by
  obtain ⟨-, -, -, hout⟩ := hs
  exact ⟨rfl, fun _ => rfl, nofun, hout⟩

/-- Settles O43: the reset values, and nothing sent. -/
theorem resetMeetsTheInvariant : Obligations.ResetMeetsTheInvariant :=
  ⟨rfl, fun _ => rfl, nofun, nofun⟩

/-- Settles O44: by the four ways of a step. -/
theorem stepKeepsTheInvariant : Obligations.StepKeepsTheInvariant := by
  intro s t hs hstep
  cases step_kind hstep with
  | waiting hin => exact hs
  | resetting hin hx => exact engineInv_applyReset hs
  | refusing hin hst => exact engineInv_respond hs (.inr rfl)
  | accepting hin hd ha hi => exact engineInv_respond (engineInv_effectOf hs ha) (.inl rfl)

/-! ### The writes of PHASE -/

/-- Settles O45: a reset leaves IDLE, an accepted command the phase of its opcode, and nothing else
writes PHASE. -/
theorem phaseTransitions : Obligations.PhaseTransitions := by
  intro s t hstep
  cases step_kind hstep with
  | waiting hin => exact .inl rfl
  | refusing hin hst => exact .inl rfl
  | @resetting x rest hin hx =>
    refine .inr (.inl ⟨rfl, ?_⟩)
    rcases (isAnswered_eq_false_iff x).mp hx with rfl | ⟨p, rfl⟩
    · exact .inl ⟨rest, hin⟩
    · exact .inr ⟨p, rest, hin⟩
  | @accepting p rest i hin hd ha hi =>
    have hphase : (effectOf i (setInbox rest s)).1.phase = phaseAfter i.opcode := effectOf_phase ha
    rw [respond_phase, hphase]
    cases i with
    | absorb dom len pl | squeeze dom len pl => exact .inl (beq_iff_eq.mp ha).symm
    | dupInit len pl => exact .inr (.inr ⟨p, rest, _, hin, hd, .inl ⟨rfl, rfl⟩⟩)
    | aeadInit len pl => exact .inr (.inr ⟨p, rest, _, hin, hd, .inr (.inl ⟨rfl, rfl⟩)⟩)
    | encrypt len pl =>
      exact .inr (.inr ⟨p, rest, _, hin, hd, .inr (.inr ⟨.inl rfl, beq_iff_eq.mp ha, rfl⟩)⟩)
    | decrypt len pl =>
      exact .inr (.inr ⟨p, rest, _, hin, hd, .inr (.inr ⟨.inr rfl, beq_iff_eq.mp ha, rfl⟩)⟩)

/-! ### The writes of V -/

/-- The command of the next step is the one its packet decodes to, when it is accepted (R50). -/
theorem acceptedCommand_of_accepts {s : State} {p : Packet} {rest : List Input} {i : Instr}
    (hin : s.inbox = .packet p :: rest) (hd : decode p = .ok i)
    (ha : accepts i.opcode s.phase = true) (hi : inputOk s.cfg i = true) :
    acceptedCommand s = some i := by
  simp [acceptedCommand, hin, hd, ha, hi]

/-- A refused packet is no accepted command. -/
theorem acceptedCommand_of_refuses {s : State} {p : Packet} {rest : List Input}
    (hin : s.inbox = .packet p :: rest) (hst : statusOf p s ≠ .ok) : acceptedCommand s = none := by
  rw [ne_eq, statusOf_eq_ok_iff] at hst
  cases hd : decode p with
  | error e => simp [acceptedCommand, hin, hd]
  | ok i =>
    have hno : ¬ (accepts i.opcode s.phase = true ∧ inputOk s.cfg i = true) :=
      fun h => hst ⟨i, hd, h⟩
    simpa [acceptedCommand, hin, hd] using hno

theorem acceptedCommand_of_resets {s : State} {x : Input} {rest : List Input}
    (hin : s.inbox = x :: rest) (hx : isAnswered x = false) : acceptedCommand s = none := by
  rcases (isAnswered_eq_false_iff x).mp hx with rfl | ⟨p, rfl⟩ <;> simp [acceptedCommand, hin]

theorem takesReset_of_cons {s : State} {x : Input} {rest : List Input} (hin : s.inbox = x :: rest) :
    takesReset s = !isAnswered x := by
  cases x <;> simp [takesReset, hin, isAnswered]

/-- The verdict an accepted DECRYPT writes: the rate it leaves is the supplied tag (R19, R90). -/
theorem effectOf_decrypt_v_iff (len : Word) (pl : List Byte) (s : State) :
    (effectOf (.decrypt len pl) s).1.v = true ↔
      rateRead (effectOf (.decrypt len pl) s).1.sponge 16 = pl.take 16 := by
  simp only [effectOf, effectDecrypt_v, effectDecrypt_sponge, aeadDecrypt_eq, eq16_iff,
    rateRead_sixteen, tagOf, tagLen]

theorem constructs_eq_true_iff (o : Opcode) :
    constructs o = true ↔ o = .dupInit ∨ o = .aeadInit := by
  cases o <;> decide

/-- Settles O46: by the four ways of a step. -/
theorem verdictWrites : Obligations.VerdictWrites := by
  intro s
  obtain ⟨t, hstep, hkind⟩ := exists_step_kind s
  refine ⟨t, hstep, ?_⟩
  cases hkind with
  | waiting hin => simp [acceptedCommand, takesReset, hin]
  | resetting hin hx => simp [acceptedCommand_of_resets hin hx, takesReset_of_cons hin, hx]
  | refusing hin hst =>
    simp [acceptedCommand_of_refuses hin hst, takesReset_of_cons hin, isAnswered]
  | @accepting p rest i hin hd ha hi =>
    rw [acceptedCommand_of_accepts hin hd ha hi, takesReset_of_cons hin]
    refine ⟨nofun, ?_, ?_, ?_⟩
    · rintro _ ⟨⟩ hopc
      exact effectOf_v_of_constructs ((constructs_eq_true_iff _).mpr hopc) _
    · rintro len pl ⟨⟩
      exact effectOf_decrypt_v_iff len pl _
    · intro _ hother
      obtain ⟨hdup, haead, hdec⟩ := hother i rfl
      have hcon : constructs i.opcode = false := by
        rw [← Bool.not_eq_true, constructs_eq_true_iff, not_or]
        exact ⟨hdup, haead⟩
      exact effectOf_v_of_not_written (setInbox rest s) hcon hdec

/-! ### Reset -/

/-- Settles O33: a reset writes the reset values whatever stood there before. -/
theorem resetGivesTheResetValues : Obligations.ResetGivesTheResetValues := by
  refine ⟨⟨rfl, rfl, rfl⟩, by decide, fun s rest p hin => ?_⟩
  have hstep : step s = .next (applyReset (setInbox rest s)) := by
    rcases hin with h | h
    · exact step_of_reset h
    · exact step_of_cutByReset h
  refine ⟨⟨_, hstep, rfl, rfl, rfl, rfl, rfl⟩, _, _, _, hstep, step_of_cons rfl,
    step_of_reset (rest := rest) ?_, rfl, rfl, rfl⟩
  rw [afterInput_inbox, setInbox_inbox]

end Sys2Proof.Machine
end

section
/-! SUPPORT. When a command is refused for its phase, and what each command leaves unchanged (R14, R18,
R22, R98). -/

namespace Sys2Proof.Machine

theorem statusByte_injective {st st' : Status} (h : statusByte st = statusByte st') : st = st' := by
  revert h
  cases st <;> cases st' <;> decide

/-- The status of the response tells the outcomes of a command apart (R48). -/
theorem status_eq_of_respond_eq {st st' : Status} {pl pl' : List Byte} {t t' : State}
    (ho : t.outbox = t'.outbox) (h : respond st pl t = respond st' pl' t') : st = st' := by
  have hout := congrArg State.outbox h
  rw [respond_outbox, respond_outbox, ho, List.append_cancel_left_eq, List.singleton_inj] at hout
  exact statusByte_injective (congrArg respStatus hout)

/-- A command ends with ERR_PHASE exactly when its phase does not accept it (R18, R98). -/
theorem exec_eq_errPhase_iff (i : Instr) (s : State) :
    exec i s = errorOutcome .errPhase s ↔ accepts i.opcode s.phase = false := by
  refine ⟨fun h => ?_, exec_errPhase⟩
  rcases exec_cases i s with ⟨-, -, e⟩ | ⟨-, -, e⟩ | ⟨ha, -⟩
  · have hr := Host.Outcome.next.inj (e.symm.trans h)
    cases status_eq_of_respond_eq (st' := .errPhase) (pl' := []) (t' := s) (effectOf_outbox i s) hr
  · have hr := Host.Outcome.next.inj (e.symm.trans h)
    cases status_eq_of_respond_eq (st' := .errPhase) (pl' := []) (t' := s) rfl hr
  · exact ha

/-- The table of R18, in the words of R98. -/
theorem accepts_eq_false_iff (o : Opcode) (p : Phase) :
    accepts o p = false ↔
      ((o = .absorb ∨ o = .squeeze) ∧ p ≠ .duplex) ∨
      ((o = .encrypt ∨ o = .decrypt) ∧ p ≠ .aeadInit) := by
  cases o <;> simp [accepts]

/-- Settles O26. -/
theorem phaseTestRefuses : Obligations.PhaseTestRefuses := fun i s =>
  (exec_eq_errPhase_iff i s).trans (accepts_eq_false_iff i.opcode s.phase)

/-! ### Frames -/

/-- An empty message leaves the state words (R87). -/
@[simp] theorem aeadEncrypt_nil_sponge (cfg : Config) (s : Sponge) : (aeadEncrypt cfg s []).1 = s := by
  rw [aeadEncrypt_eq, blocks_nil, encryptChunks_nil]

/-- An empty message leaves the state words (R89). -/
@[simp] theorem aeadDecrypt_nil_sponge (cfg : Config) (s : Sponge) (tag : List Byte) :
    (aeadDecrypt cfg s [] tag).1 = s := by
  rw [aeadDecrypt_eq, blocks_nil, decryptChunks_nil]

/-- What the effect of each command leaves of PHASE, V and the state words (R14). -/
theorem effectOf_frame (i : Instr) (s : State) :
    (i.opcode = .absorb → (effectOf i s).1.phase = s.phase ∧ (effectOf i s).1.v = s.v) ∧
    (i.opcode = .squeeze → (effectOf i s).1.phase = s.phase ∧ (effectOf i s).1.v = s.v ∧
      (i.len.toNat ≤ 16 → (effectOf i s).1.sponge = s.sponge)) ∧
    (i.opcode = .encrypt → (effectOf i s).1.v = s.v ∧
      (i.payload = [] → (effectOf i s).1.sponge = s.sponge)) ∧
    (i.opcode = .decrypt → i.payload.length ≤ 16 → (effectOf i s).1.sponge = s.sponge) := by
  cases i with
  | dupInit len p | aeadInit len p => exact ⟨nofun, nofun, nofun, nofun⟩
  | absorb dom len p => exact ⟨fun _ => ⟨rfl, rfl⟩, nofun, nofun, nofun⟩
  | squeeze dom len p =>
    refine ⟨nofun, fun _ => ⟨rfl, rfl, fun (h : len.toNat ≤ 16) => ?_⟩, nofun, nofun⟩
    simp [effectOf, squeeze_short s.cfg s.sponge dom h]
  | encrypt len p =>
    refine ⟨nofun, nofun, fun _ => ⟨rfl, fun (h : p = []) => ?_⟩, nofun⟩
    simp [effectOf, h]
  | decrypt len p =>
    refine ⟨nofun, nofun, nofun, fun _ (h : p.length ≤ 16) => ?_⟩
    simp [effectOf, ctOf, List.drop_of_length_le h]

/-- Settles O42: an accepted command answers after its effect, a refused one answers and nothing
else. -/
theorem commandFrame : Obligations.CommandFrame := by
  intro i s t hexec
  rcases exec_cases i s with ⟨-, -, e⟩ | ⟨-, -, e⟩ | ⟨-, e⟩ <;>
    obtain rfl := Host.Outcome.next.inj (e.symm.trans hexec)
  · exact ⟨effectOf_cfg i s, effectOf_inbox i s, ⟨_, by rw [respond_outbox, effectOf_outbox]⟩,
      effectOf_frame i s⟩
  all_goals simp

end Sys2Proof.Machine
end

section
/-! SUPPORT. The rate window as the host reads it: the number a word is, the word a primitive changes,
and the bytes RateRead returns (R27 to R32, R61). -/

namespace Sys2Proof

/-- The four bytes of `le32` stand side by side, the last one on top (R28). -/
theorem le32_eq_append (b0 b1 b2 b3 : Byte) : le32 b0 b1 b2 b3 = b3 ++ (b2 ++ (b1 ++ b0)) := by
  apply BitVec.eq_of_getLsbD_eq
  intro j hj
  rw [le32_getLsbD _ _ _ _ _ hj, BitVec.getLsbD_append, BitVec.getLsbD_append, BitVec.getLsbD_append]
  grind

/-- Bits on top of `n` others count 2^n each. -/
theorem toNat_append_eq_add {m n : Nat} (x : BitVec m) (y : BitVec n) :
    (x ++ y).toNat = x.toNat * 2 ^ n + y.toNat := by
  rw [BitVec.toNat_append, ← Nat.shiftLeft_add_eq_or_of_lt y.isLt, Nat.shiftLeft_eq]

/-- The number `le32` gives is base 256 (R28). -/
theorem le32_toNat (b0 b1 b2 b3 : Byte) : (le32 b0 b1 b2 b3).toNat =
    b0.toNat + 256 * b1.toNat + 65536 * b2.toNat + 16777216 * b3.toNat := by
  rw [le32_eq_append, toNat_append_eq_add, toNat_append_eq_add, toNat_append_eq_add]
  omega

namespace Machine

/-- The domain byte in bits 31:24 (R61). -/
theorem domWord_toNat (dom : Byte) : (domWord dom).toNat = dom.toNat * 2 ^ 24 := by
  have hdom : dom.toNat < 2 ^ 8 := dom.isLt
  simp only [domWord, domShift, BitVec.toNat_shiftLeft, BitVec.toNat_setWidth, Nat.shiftLeft_eq]
  omega

theorem planeGet_blockPlane (blk : List Byte) (k : Fin 4) :
    planeGet (blockPlane blk) k = blockWord blk k.val := by
  fin_cases k <;> rfl

/-- A lane mask has its word in its own lane. -/
theorem planeGet_laneMask_self {k : Nat} (hk : k < 4) (w : Word) :
    planeGet (laneMask k w) (Fin.ofNat 4 k) = w := by
  interval_cases k <;> rfl

/-- Byte `j` of what RateRead returns is rate byte `j` (R30). -/
theorem rateRead_getElem? (s : Sponge) {n j : Nat} (hn : n ≤ 16) (hj : j < n) :
    (rateRead s n)[j]? = some ((rateBytes s).getD j 0) := by
  have hlen : j < (rateBytes s).length := Nat.lt_of_lt_of_le hj hn
  rw [rateRead, List.getElem?_take_of_lt hj, List.getD_eq_getElem?_getD,
    List.getElem?_eq_getElem hlen, Option.getD_some]

/-- Settles O11: each rate byte and each rate word by itself. -/
theorem rateBytesReadAndXor : Obligations.RateBytesReadAndXor := by
  refine ⟨le32_toNat, fun s blk _ => ⟨fun j hj => ⟨planeBytes_getD s.a0 j hj, ?_⟩, fun k => ?_, rfl, rfl,
    fun n hn => ⟨?_, fun j hj => rateRead_getElem? s hn hj⟩⟩⟩
  · rw [rateXor, rateBytes_xorRate _ _ j hj, planeBytes_blockPlane blk j hj]
  · rw [rateXor, xorRate_a0, planeGet_planeXor, planeGet_blockPlane, blockWord]
  · rw [rateRead_length, Nat.min_eq_left hn]

/-- Settles O12: the mask of each primitive, byte by byte and in its word. -/
theorem paddingAndDomainTouchOneByte : Obligations.PaddingAndDomainTouchOneByte := by
  refine ⟨fun s m j _ hm hj => ⟨?_, ?_, rfl, rfl⟩, fun s dom j hj => ⟨?_, rfl, rfl, rfl⟩, domWord_toNat⟩
  · rw [padXor, rateBytes_xorRate _ _ j hj, planeBytes_padMask m j (by omega) hj]
  · rw [padXor, xorRate_a0, planeGet_planeXor, padMask, planeGet_laneMask_self (by omega)]
  · rw [domXor, rateBytes_xorRate _ _ j hj, planeBytes_domMask dom j hj]

end Machine

end Sys2Proof
end

section
/-! SUPPORT. What stands beside a run without touching it: the inputs behind the ones it takes (R36, R123),
and the other engines of a system (R39). -/

namespace Sys2Proof.Machine

/-! ### Inputs behind -/

/-- The state with more inputs behind those already offered (R123). -/
abbrev offerBehind (later : List Input) (s : State) : State := setInbox (s.inbox ++ later) s

/-- A step that takes an input does the same with more inputs behind it, and leaves them there. -/
theorem step_offerBehind {s t : State} (hin : s.inbox ≠ []) (hstep : step s = .next t)
    (later : List Input) : step (offerBehind later s) = .next (offerBehind later t) := by
  rcases step_cases s with ⟨hnil, _⟩ | ⟨x, rest, hcons, hs⟩
  · exact absurd hnil hin
  · obtain rfl := Host.Outcome.next.inj (hs.symm.trans hstep)
    have hbehind : (offerBehind later s).inbox = x :: (rest ++ later) := by
      rw [setInbox_inbox, hcons, List.cons_append]
    rw [step_of_cons hbehind, afterInput_setInbox x s rest]
    exact congrArg Host.Outcome.next (afterInput_setInbox x s (rest ++ later))

/-- A step takes one input from the front. -/
theorem step_inbox {s t : State} (hstep : step s = .next t) : t.inbox = s.inbox.tail := by
  rcases step_cases s with ⟨hnil, hs⟩ | ⟨x, rest, hcons, hs⟩ <;>
    obtain rfl := Host.Outcome.next.inj (hs.symm.trans hstep)
  · rw [hnil, List.tail_nil]
  · rw [afterInput_inbox, setInbox_inbox, hcons, List.tail_cons]

/-- A run that takes no more than what is offered does the same with more inputs behind it. -/
theorem run_offerBehind (later : List Input) (k : Nat) {s : State} (hk : k ≤ s.inbox.length) :
    ∃ t, Host.Core.run Sys2Proof.core k s = .next t ∧
      Host.Core.run Sys2Proof.core k (offerBehind later s) = .next (offerBehind later t) := by
  induction k generalizing s with
  | zero => exact ⟨s, run_zero s, run_zero _⟩
  | succ k ih =>
    obtain ⟨u, hu, -⟩ := exists_step_kind s
    have hin : s.inbox ≠ [] := List.length_pos_iff.mp (Nat.zero_lt_of_lt hk)
    have hrest : k ≤ u.inbox.length := by
      rw [step_inbox hu, List.length_tail]
      exact Nat.le_sub_one_of_lt hk
    obtain ⟨t, ht, ht'⟩ := ih hrest
    exact ⟨t, (run_succ hu).trans ht, (run_succ (step_offerBehind hin hu later)).trans ht'⟩

/-- Settles O35: by induction on the steps, each of which leaves what stands behind its input. -/
theorem offeredPacketsAreHeld : Obligations.OfferedPacketsAreHeld :=
  fun _ later k hk => run_offerBehind later k hk

/-! ### Engines side by side -/

/-- The step of an instance that is there writes its next state and nothing else (R39). -/
theorem systemStep_of_some {es : List State} {k : Nat} {s t : State} (hs : es[k]? = some s)
    (ht : step s = .next t) : systemStep es k = es.set k t := by
  simp only [systemStep, hs, ht]

/-- A step of the system writes one instance at most. -/
theorem systemStep_cases (es : List State) (j : Nat) :
    systemStep es j = es ∨ ∃ t, systemStep es j = es.set j t := by
  cases hs : es[j]? with
  | none => exact .inl (by simp only [systemStep, hs])
  | some s =>
    obtain ⟨t, ht, -⟩ := exists_step_kind s
    exact .inr ⟨t, systemStep_of_some hs ht⟩

@[simp] theorem systemStep_length (es : List State) (j : Nat) : (systemStep es j).length = es.length := by
  rcases systemStep_cases es j with h | ⟨t, h⟩ <;> simp [h]

/-- The instance that steps goes where it would go alone. -/
theorem systemStep_getElem?_self {es : List State} {k : Nat} {s t : State} (hs : es[k]? = some s)
    (ht : step s = .next t) : (systemStep es k)[k]? = some t := by
  obtain ⟨hk, -⟩ := List.getElem?_eq_some_iff.mp hs
  rw [systemStep_of_some hs ht, List.getElem?_set_self hk]

/-- An instance that does not step stays as it is. -/
theorem systemStep_getElem?_of_ne (es : List State) {j k : Nat} (hj : j ≠ k) :
    (systemStep es j)[k]? = es[k]? := by
  rcases systemStep_cases es j with h | ⟨t, h⟩ <;> simp [h, hj]

@[simp] theorem systemRun_length (es : List State) (schedule : List Nat) :
    (systemRun es schedule).length = es.length := by
  induction schedule generalizing es with
  | nil => rfl
  | cons j js ih => exact (ih (systemStep es j)).trans (systemStep_length es j)

/-- After a schedule an instance is where its own steps alone take it. -/
theorem systemRun_getElem? (schedule : List Nat) {es : List State} {k : Nat} {s : State}
    (hs : es[k]? = some s) : ∃ t, (systemRun es schedule)[k]? = some t ∧
      Host.Core.run Sys2Proof.core (schedule.count k) s = .next t := by
  induction schedule generalizing es s with
  | nil => exact ⟨s, hs, run_zero s⟩
  | cons j js ih =>
    by_cases hj : j = k
    · subst hj
      obtain ⟨u, hu, -⟩ := exists_step_kind s
      obtain ⟨t, ht, hrun⟩ := ih (systemStep_getElem?_self hs hu)
      exact ⟨t, ht, by rw [List.count_cons_self, run_succ hu, hrun]⟩
    · obtain ⟨t, ht, hrun⟩ := ih ((systemStep_getElem?_of_ne es hj).trans hs)
      exact ⟨t, ht, by rw [List.count_cons_of_ne hj, hrun]⟩

/-- Settles O37: by induction on the schedule, whose steps touch one instance each. -/
theorem instancesAreIndependent : Obligations.InstancesAreIndependent :=
  fun es schedule _ _ hs => ⟨systemRun_length es schedule, systemRun_getElem? schedule hs⟩

end Sys2Proof.Machine
end

section
/-! SUPPORT. The decoder and the encoder of command packets are inverse to each other, and both follow the
rows of the opcode table (R42 to R44, R48, R53). -/

namespace Sys2Proof

open Machine

/-! ### Encoding, then decoding -/

/-- Every command carries a DOM byte that its opcode allows (R42). -/
theorem takesDom_or_dom_eq_zero (i : Instr) : takesDom i.opcode = true ∨ i.dom = 0 := by
  cases i with
  | absorb dom len pl | squeeze dom len pl => exact .inl rfl
  | dupInit len pl | aeadInit len pl | encrypt len pl | decrypt len pl => exact .inr rfl

@[simp] theorem decode_encode (i : Instr) : decode (encode i) = .ok i := by
  simp only [encode, wordBytes, List.cons_append, List.nil_append, decode_header,
    opcodeOfByte_opcodeByte, le32_of_bytes, buildInstr_self, and_self, if_true,
    if_pos (takesDom_or_dom_eq_zero i)]

/-- Settles O38: the header bytes of a command select its row and hold its fields. -/
theorem decodeInvertsEncode : Obligations.DecodeInvertsEncode := decode_encode

/-- Settles O41: each packet of R53 is the encoding of its command, and the two responses are computed. -/
theorem workedEncodings : Obligations.WorkedEncodings := by
  refine ⟨decode_encode (.dupInit 0 []), decode_encode (.absorb 0x03 3 [0xAA, 0xBB, 0xCC]),
    decode_encode (.absorb 0x03 0 []), decode_encode (.squeeze 0x01 16 []),
    decode_encode (.squeeze 0x01 300 []), decode_encode (.aeadInit 32 (List.replicate 32 0)),
    decode_encode (.encrypt 4 [0x74, 0x65, 0x73, 0x74]),
    fun tag => ?_, by decide, responsePacket_nil ..⟩
  have header : ([0x22, 0, 0, 0, 0x14, 0, 0, 0] : List Byte) =
      [opcodeByte .decrypt, 0, 0, 0] ++ wordBytes 20 := by decide
  rw [List.append_assoc, header]
  exact decode_encode (.decrypt 20 (tag ++ [0x01, 0x02, 0x03, 0x04]))

/-! ### Decoding, then encoding -/

/-- A packet of at least eight bytes is a header and a payload (R42). -/
theorem exists_header_of_length {p : Packet} (h : 8 ≤ p.length) :
    ∃ opc dom r2 r3 n0 n1 n2 n3 pl, p = opc :: dom :: r2 :: r3 :: n0 :: n1 :: n2 :: n3 :: pl := by
  match p, h with
  | opc :: dom :: r2 :: r3 :: n0 :: n1 :: n2 :: n3 :: pl, _ =>
    exact ⟨opc, dom, r2, r3, n0, n1, n2, n3, pl, rfl⟩

theorem length_of_decode_eq_ok {p : Packet} {i : Instr} (h : decode p = .ok i) : 8 ≤ p.length := by
  by_contra hlt
  rw [decode_short (Nat.lt_of_not_le hlt)] at h
  cases h

/-- The packets that are commands, and which command each is (R42, R48). -/
theorem decode_header_eq_ok_iff (opc dom r2 r3 n0 n1 n2 n3 : Byte) (pl : List Byte) (i : Instr) :
    decode (opc :: dom :: r2 :: r3 :: n0 :: n1 :: n2 :: n3 :: pl) = .ok i ↔
      ∃ o, opcodeByte o = opc ∧ (r2 = 0 ∧ r3 = 0) ∧ (takesDom o = true ∨ dom = 0) ∧
        buildInstr o dom (le32 n0 n1 n2 n3) pl = i := by
  constructor
  · intro h
    rw [decode_header] at h
    split at h
    · cases h
    · next o ho =>
      split_ifs at h with hr hdom
      exact ⟨o, opcodeByte_of_opcodeOfByte ho, hr, hdom, Except.ok.inj h⟩
  · rintro ⟨o, rfl, hr, hdom, rfl⟩
    simp only [decode_header, opcodeOfByte_opcodeByte, if_pos hr, if_pos hdom]

theorem buildInstr_dom {o : Opcode} {dom : Byte} (h : takesDom o = true ∨ dom = 0) (len : Word)
    (pl : List Byte) : (buildInstr o dom len pl).dom = dom := by
  cases o with
  | absorb | squeeze => rfl
  | dupInit | aeadInit | encrypt | decrypt => exact (h.resolve_left nofun).symm

theorem encode_of_decode {p : Packet} {i : Instr} (h : decode p = .ok i) : encode i = p := by
  obtain ⟨opc, dom, r2, r3, n0, n1, n2, n3, pl, rfl⟩ :=
    exists_header_of_length (length_of_decode_eq_ok h)
  obtain ⟨o, rfl, ⟨rfl, rfl⟩, hdom, rfl⟩ := (decode_header_eq_ok_iff ..).mp h
  rw [encode, buildInstr_opcode, buildInstr_dom hdom, buildInstr_len, buildInstr_payload,
    wordBytes_le32]
  rfl

/-- Settles O39: the fields of a packet that decodes are those of its command. -/
theorem encodeInvertsDecode : Obligations.EncodeInvertsDecode := fun _ _ => encode_of_decode

/-! ### The opcode table -/

theorem opcodeByte_injective {o o' : Opcode} (h : opcodeByte o = opcodeByte o') : o = o' := by
  have hsome : some o = some o' := by rw [← opcodeOfByte_opcodeByte, h, opcodeOfByte_opcodeByte]
  exact Option.some.inj hsome

/-- AND acts on the four bytes of a word one by one. -/
theorem le32_and (a0 a1 a2 a3 b0 b1 b2 b3 : Byte) :
    le32 a0 a1 a2 a3 &&& le32 b0 b1 b2 b3 =
      le32 (a0 &&& b0) (a1 &&& b1) (a2 &&& b2) (a3 &&& b3) := by
  apply BitVec.eq_of_getLsbD_eq
  intro j hj
  simp only [BitVec.getLsbD_and, le32_getLsbD _ _ _ _ _ hj]
  split_ifs <;> rfl

theorem le32_inj {a0 a1 a2 a3 b0 b1 b2 b3 : Byte} :
    le32 a0 a1 a2 a3 = le32 b0 b1 b2 b3 ↔ a0 = b0 ∧ a1 = b1 ∧ a2 = b2 ∧ a3 = b3 := by
  constructor
  · intro h
    have hbytes := congrArg wordBytes h
    simpa only [wordBytes_le32, List.cons.injEq, and_true] using hbytes
  · rintro ⟨rfl, rfl, rfl, rfl⟩
    rfl

theorem rowMatch_eq_le32 (o : Opcode) : rowMatch o = le32 (opcodeByte o) 0 0 0 := by
  cases o <;> rfl

/-- A row's mask leaves out the DOM byte where it is free, and nothing else (R44). -/
theorem rowMask_eq_le32 (o : Opcode) :
    rowMask o = le32 0xFF (if takesDom o then 0 else 0xFF) 0xFF 0xFF := by
  cases o <;> rfl

/-- A header selects the row of its OPC, when RSV is zero, and DOM is zero where it must be (R44). -/
theorem and_rowMask_eq_rowMatch_iff (o : Opcode) (opc dom r2 r3 : Byte) :
    le32 opc dom r2 r3 &&& rowMask o = rowMatch o ↔
      opcodeByte o = opc ∧ (r2 = 0 ∧ r3 = 0) ∧ (takesDom o = true ∨ dom = 0) := by
  have all (b : Byte) : b &&& 0xFF = b := BitVec.and_allOnes
  have hdom : (dom &&& if takesDom o then 0 else 0xFF) = 0 ↔ takesDom o = true ∨ dom = 0 := by
    cases takesDom o with
    | true => simp
    | false => simp only [Bool.false_eq_true, if_false, all, false_or]
  rw [rowMask_eq_le32, rowMatch_eq_le32, le32_and, le32_inj, all, all, all, hdom, eq_comm (a := opc)]
  tauto

/-- A packet with a whole header is a command of the opcode whose row its header selects (R44, R48). -/
theorem exists_decode_opcode_iff (opc dom r2 r3 n0 n1 n2 n3 : Byte) (pl : List Byte) (o : Opcode) :
    (∃ i, decode (opc :: dom :: r2 :: r3 :: n0 :: n1 :: n2 :: n3 :: pl) = .ok i ∧ i.opcode = o) ↔
      opcodeByte o = opc ∧ (r2 = 0 ∧ r3 = 0) ∧ (takesDom o = true ∨ dom = 0) := by
  simp only [decode_header_eq_ok_iff]
  constructor
  · rintro ⟨_, ⟨o', hopc, hr, hdom, rfl⟩, ho⟩
    rw [buildInstr_opcode] at ho
    exact ho ▸ ⟨hopc, hr, hdom⟩
  · rintro ⟨hopc, hr, hdom⟩
    exact ⟨_, ⟨o, hopc, hr, hdom, rfl⟩, buildInstr_opcode ..⟩

/-- Two rows that one word selects have the same OPC byte (R44). -/
theorem rows_disjoint {w0 : Word} {o o' : Opcode} (h : w0 &&& rowMask o = rowMatch o)
    (h' : w0 &&& rowMask o' = rowMatch o') : o = o' := by
  rw [← le32_of_bytes w0, and_rowMask_eq_rowMatch_iff] at h h'
  exact opcodeByte_injective (h.1.trans h'.1.symm)

/-- Settles O40: the mask test and the decoder test the same bytes of the header. -/
theorem decoderFollowsTheOpcodeTable : Obligations.DecoderFollowsTheOpcodeTable := by
  refine ⟨rfl, fun p w0 o hlen hw0 => ?_, fun _ _ _ => rows_disjoint⟩
  obtain ⟨opc, dom, r2, r3, n0, n1, n2, n3, pl, rfl⟩ := exists_header_of_length hlen
  obtain rfl : le32 opc dom r2 r3 = w0 := Option.some.inj hw0
  rw [and_rowMask_eq_rowMatch_iff, exists_decode_opcode_iff]

end Sys2Proof
end

section
/-! SUPPORT. The response packet, and the one response that answers each packet (R40, R46, R50). -/

namespace Sys2Proof.Machine

/-! ### The header of a response -/

/-- W0 of a response: STATUS, PHASE and V side by side (R46). -/
theorem headerW0_responsePacket (st : Status) (p : Phase) (v : Bool) (pl : List Byte) :
    headerW0 (responsePacket st p v pl) =
      some ((statusByte st).setWidth 32 ||| ((phaseCode p).setWidth 32 <<< 8) |||
        (if v then 1 <<< 16 else 0)) := by
  have hphase : (phaseByte p).setWidth 32 = (phaseCode p).setWidth 32 := by
    cases p <;> rfl
  have hv : (vByte v).setWidth 32 <<< 16 = if v then (1 : Word) <<< 16 else 0 := by
    cases v <;> rfl
  simp [headerW0, responsePacket, le32, hphase, hv]

/-- The four OLEN bytes are the payload's length in base 256, when they can hold it (R46). -/
theorem olenBytes_responsePacket (st : Status) (p : Phase) (v : Bool) {pl : List Byte}
    (h : pl.length < 2 ^ 32) :
    let r := responsePacket st p v pl
    (r.getD 4 0).toNat + 256 * (r.getD 5 0).toNat + 65536 * (r.getD 6 0).toNat +
      16777216 * (r.getD 7 0).toNat = pl.length := by
  intro r
  rw [← le32_toNat, ← headerQ1_toNat h]
  exact congrArg BitVec.toNat (respOlen_responsePacket st p v pl)

/-! ### What an input is answered with -/

/-- A packet is answered with one response, which shows PHASE and V as they stand after it, and has no
payload on an error (R40, R46, R96). -/
theorem afterPacket_responds (p : Packet) (s : State) :
    ∃ st pl, (afterPacket p s).outbox =
        s.outbox ++ [responsePacket st (afterPacket p s).phase (afterPacket p s).v pl] ∧
      (st ≠ .ok → pl = []) := by
  by_cases hst : statusOf p s = .ok
  · obtain ⟨i, hd, ha, hi⟩ := (statusOf_eq_ok_iff p s).mp hst
    rw [afterPacket_of_accepted hd ha hi]
    exact ⟨.ok, (effectOf i s).2, by rw [respond_outbox, effectOf_outbox]; rfl, (absurd rfl ·)⟩
  · rw [afterPacket_of_refused hst]
    exact ⟨statusOf p s, [], rfl, fun _ => rfl⟩

/-- An input adds one response if it is a packet, and none if it is a reset (R40, R114). -/
theorem afterInput_responses (x : Input) (s : State) :
    ∃ rs, (afterInput x s).outbox = s.outbox ++ rs ∧ rs.length = ([x].filter isAnswered).length := by
  cases x with
  | packet p =>
    obtain ⟨st, pl, hout, -⟩ := afterPacket_responds p s
    exact ⟨_, hout, rfl⟩
  | reset | cutByReset p => exact ⟨[], by simp [afterInput], rfl⟩

/-- Settles O30: each field by itself, and the one response that answers a packet. -/
theorem responsePacketLayout : Obligations.ResponsePacketLayout := by
  refine ⟨fun st p v pl => ⟨responsePacket_length st p v pl, rfl, rfl, rfl, rfl,
      headerW0_responsePacket st p v pl, olenBytes_responsePacket st p v, rfl⟩,
    ⟨rfl, rfl, rfl, rfl⟩, ⟨rfl, rfl, rfl, rfl, rfl, rfl⟩, fun s p rest hin => ?_⟩
  obtain ⟨st, pl, hout, hpl⟩ := afterPacket_responds p (setInbox rest s)
  exact ⟨_, st, pl, step_of_cons hin, hout, hpl⟩

/-! ### Steps and runs -/

/-- Settles O31: the step takes the packet, and the packet runs its command. -/
theorem stepRunsTheDecodedCommand : Obligations.StepRunsTheDecodedCommand :=
  fun s _ rest _ hin hd => (step_of_packet hin).trans (runPacket_of_ok hd (setInbox rest s))

/-- A run over what is offered takes its inputs from the front and adds one response for each packet
(R40). -/
theorem run_responses (k : Nat) {s : State} (hk : k ≤ s.inbox.length) :
    ∃ t rs, Host.Core.run Sys2Proof.core k s = .next t ∧ t.inbox = s.inbox.drop k ∧
      t.outbox = s.outbox ++ rs ∧ rs.length = ((s.inbox.take k).filter isAnswered).length := by
  induction k generalizing s with
  | zero => exact ⟨s, [], run_zero s, rfl, by simp, by simp⟩
  | succ k ih =>
    match hin : s.inbox with
    | [] => simp [hin] at hk
    | x :: rest =>
      obtain ⟨first, hfirst, hone⟩ := afterInput_responses x (setInbox rest s)
      have hinbox : (afterInput x (setInbox rest s)).inbox = rest := by simp
      obtain ⟨t, rs, hrun, htin, hout, hlen⟩ :=
        ih (s := afterInput x (setInbox rest s)) (by simpa [hin] using hk)
      rw [hinbox] at htin hlen
      refine ⟨t, first ++ rs, (run_cons hin).trans hrun, htin, ?_, ?_⟩
      · rw [hout, hfirst, setInbox_outbox, List.append_assoc]
      · rw [List.length_append, hone, hlen, ← List.length_append, ← List.filter_append]
        rfl

/-- Settles O34: by induction on the steps, each of which answers its input. -/
theorem oneResponsePerPacket : Obligations.OneResponsePerPacket := fun _ k hk => run_responses k hk

end Sys2Proof.Machine
end

section
/-! SUPPORT. Sessions by hand (R52): a run of accepted packets command by command, construction in DUPLEX,
and the replay of a message chunk by chunk. -/

namespace Sys2Proof.Machine

/-! ### Accepted packets, one at a time -/

/-- A run begins with the oldest packet: its command's effect and one OK response, when it is accepted
(R50). -/
theorem run_accepted {s : State} {i : Instr} (ha : accepts i.opcode s.phase = true)
    (hi : inputOk s.cfg i = true) (rest : List Input) (k : Nat) :
    Host.Core.run Sys2Proof.core (k + 1) (setInbox (.packet (encode i) :: rest) s) =
      Host.Core.run Sys2Proof.core k
        (setInbox rest (respond .ok (effectOf i s).2 (effectOf i s).1)) := by
  have htake : setInbox rest (setInbox (.packet (encode i) :: rest) s) = setInbox rest s := rfl
  rw [run_cons (setInbox_inbox _ s), htake, afterInput_setInbox, afterInput_packet,
    afterPacket_of_accepted (decode_encode i) ha hi]

/-- LEN names every number of bytes that it can hold. -/
theorem toNat_ofNat_len {n : Nat} (h : n < 2 ^ 32) : (BitVec.ofNat 32 n).toNat = n := by
  rw [BitVec.toNat_ofNat, Nat.mod_eq_of_lt h]

/-- DUP_INIT in any phase (R75). -/
theorem run_dupInitPacket (s : State) (rest : List Input) (k : Nat) :
    Host.Core.run Sys2Proof.core (k + 1) (setInbox (.packet dupInitPacket :: rest) s) =
      Host.Core.run Sys2Proof.core k (setInbox rest (respond .ok [] (effectDupInit s).1)) :=
  run_accepted rfl rfl rest k

/-- ABSORB in DUPLEX (R77). -/
theorem run_absorbPacket {s : State} (hp : s.phase = .duplex) (dom : Byte) {data : List Byte}
    (hlen : data.length < 2 ^ 32) (hmax : data.length ≤ s.cfg.maxLen) (rest : List Input) (k : Nat) :
    Host.Core.run Sys2Proof.core (k + 1) (setInbox (.packet (absorbPacket dom data) :: rest) s) =
      Host.Core.run Sys2Proof.core k
        (setInbox rest (respond .ok [] (setSponge (absorb s.cfg s.sponge data dom) s))) :=
  run_accepted (i := .absorb dom (BitVec.ofNat 32 data.length) data) (beq_iff_eq.mpr hp)
    (by simp [inputOk, Instr.len, toNat_ofNat_len hlen, hmax]) rest k

/-- SQUEEZE of at most 16 bytes in DUPLEX: the rate is sent, and no state word changes (R78, R79). -/
theorem run_squeezePacket {s : State} (hp : s.phase = .duplex) (dom : Byte) {len : Nat}
    (hlen : len ≤ 16) (hmax : len ≤ s.cfg.maxLen) (rest : List Input) (k : Nat) :
    Host.Core.run Sys2Proof.core (k + 1) (setInbox (.packet (squeezePacket dom len) :: rest) s) =
      Host.Core.run Sys2Proof.core k
        (setInbox rest (respond .ok (rateRead s.sponge len) s)) := by
  have htoNat : (BitVec.ofNat 32 len).toNat = len := toNat_ofNat_len (by omega)
  have heffect : effectOf (.squeeze dom (BitVec.ofNat 32 len) []) s =
      (s, rateRead s.sponge len) := by
    simp only [effectOf, effectSqueeze, htoNat, squeeze_short s.cfg s.sponge dom hlen]
    rfl
  have hinput : inputOk s.cfg (.squeeze dom (BitVec.ofNat 32 len) []) = true := by
    simp [inputOk, Instr.len, htoNat, hmax]
  rw [squeezePacket, run_accepted (i := .squeeze dom _ []) (beq_iff_eq.mpr hp) hinput, heffect]

/-! ### Construction -/

section
variable {key nonce : List Byte} (hk : key.length = 16) (hn : nonce.length = 16) (ad : List Byte)
include hk

theorem keyOf_append : keyOf (key ++ nonce ++ ad) = key := by
  rw [keyOf, keyLen, ← hk, List.append_assoc, List.take_left]

include hn

theorem nonceOf_append : nonceOf (key ++ nonce ++ ad) = nonce := by
  rw [nonceOf, keyLen, nonceLen, ← hk, List.append_assoc, List.drop_left, hk, ← hn, List.take_left]

theorem adOf_append : adOf (key ++ nonce ++ ad) = ad := by
  have hlen : keyLen + nonceLen = (key ++ nonce).length := by simp [hk, hn]
  rw [adOf, hlen, List.drop_left]

/-- AEAD_INIT with a whole key and a whole nonce (R86). -/
theorem run_aeadInitPacket {s : State} (hlen : 32 + ad.length < 2 ^ 32)
    (hmax : 32 + ad.length ≤ s.cfg.maxLen) (rest : List Input) (k : Nat) :
    Host.Core.run Sys2Proof.core (k + 1) (setInbox (.packet (aeadInitPacket key nonce ad) :: rest) s) =
      Host.Core.run Sys2Proof.core k
        (setInbox rest (respond .ok [] (effectAeadInit key nonce ad s).1)) := by
  have hpayload : (key ++ nonce ++ ad).length = 32 + ad.length := by
    rw [List.length_append, List.length_append, hk, hn]
  have hinput : inputOk s.cfg
      (.aeadInit (BitVec.ofNat 32 (32 + ad.length)) (key ++ nonce ++ ad)) = true := by
    simp only [inputOk, Instr.len, toNat_ofNat_len hlen, hpayload, hmax, keyLen, nonceLen,
      Nat.le_add_right, decide_true, beq_self_eq_true, Bool.and_self]
  rw [aeadInitPacket, run_accepted rfl hinput]
  simp only [effectOf, keyOf_append hk, nonceOf_append hk hn, adOf_append hk hn]
  rfl

end

/-- The packets that construct a session by hand in DUPLEX (R52, R85). -/
def constructPackets (key nonce ad : List Byte) : List Packet :=
  [dupInitPacket, absorbPacket 0x03 (key ++ nonce)] ++
    if ad = [] then [] else [absorbPacket 0x03 ad]

/-- Construction by hand leaves the state words and V of AEAD_INIT, and PHASE in DUPLEX (R52, R85). -/
theorem run_constructPackets (s : State) {key nonce : List Byte} (ad : List Byte)
    (hkn : (key ++ nonce).length = 32) (hlen : 32 + ad.length < 2 ^ 32)
    (hmax : 32 + ad.length ≤ s.cfg.maxLen) :
    ∃ u, Host.Core.run Sys2Proof.core (constructPackets key nonce ad).length
        (setInbox ((constructPackets key nonce ad).map .packet) s) = .next u ∧
      u.sponge = aeadConstruct s.cfg key nonce ad ∧ u.phase = .duplex ∧ u.v = false := by
  have hdup := run_dupInitPacket s
  have hfirst := run_absorbPacket (s := respond .ok [] (effectDupInit s).1) rfl 0x03
    (data := key ++ nonce) (by omega) (le_trans (by omega) hmax)
  by_cases had : ad = []
  · subst had
    exact ⟨_, (hdup _ _).trans ((hfirst [] 0).trans (run_zero _)), rfl, rfl, rfl⟩
  · have hsecond := run_absorbPacket (s := respond .ok [] (setSponge
      (absorb s.cfg zeroSponge (key ++ nonce) 0x03) (respond .ok [] (effectDupInit s).1))) rfl 0x03
      (data := ad) (by omega) (le_trans (by omega) hmax) [] 0
    rw [constructPackets, if_neg had]
    exact ⟨_, (hdup _ _).trans ((hfirst _ _).trans (hsecond.trans (run_zero _))),
      (aeadConstruct_of_ne_nil s.cfg key nonce had).symm, rfl, rfl⟩

/-! ### The chunks of a message -/

/-- The keystream chunks of a message: the rate before each plaintext chunk is absorbed (R87). -/
def keystream (cfg : Config) : List (List Byte) → Sponge → List (List Byte)
  | [], _ => []
  | p :: ps, s => rateRead s p.length :: keystream cfg ps (absorb cfg s p domAbsorb)

/-- The ciphertext is the plaintext chunks XORed with the keystream chunks (R87). -/
theorem encryptChunks_eq_keystream (cfg : Config) {ps : List (List Byte)} (s : Sponge)
    (h : ∀ p ∈ ps, p.length ≤ 16) :
    (encryptChunks cfg ps s).2 = (List.zipWith xorBytes ps (keystream cfg ps s)).flatten := by
  induction ps generalizing s with
  | nil => rfl
  | cons p ps ih =>
    obtain ⟨hp, hps⟩ := List.forall_mem_cons.mp h
    rw [encryptChunks_cons cfg p ps s hp, ih _ hps]
    rfl

theorem blocks_length_le (data : List Byte) : ∀ b ∈ blocks data, b.length ≤ 16 :=
  fun b hb => (blocks_size data b hb).2

/-- The first chunk of the recovered plaintext of a ciphertext (R89). -/
def recoveredChunk (s : Sponge) (ct : List Byte) : List Byte :=
  xorBytes (ct.take 16) (rateRead s (ct.take 16).length)

theorem recoveredChunk_length (s : Sponge) (ct : List Byte) :
    (recoveredChunk s ct).length = (ct.take 16).length := by
  simp [recoveredChunk]

/-- The state after the first chunk of a ciphertext (R89). -/
def recoveredState (cfg : Config) (s : Sponge) (ct : List Byte) : Sponge :=
  absorb cfg s (recoveredChunk s ct) domAbsorb

/-- Decryption, chunk by chunk of the ciphertext (R89). -/
theorem decryptChunks_blocks (cfg : Config) (s : Sponge) {ct : List Byte} (h : ct ≠ []) :
    decryptChunks cfg (blocks ct) s =
      ((decryptChunks cfg (blocks (ct.drop 16)) (recoveredState cfg s ct)).1,
        recoveredChunk s ct ++
          (decryptChunks cfg (blocks (ct.drop 16)) (recoveredState cfg s ct)).2) := by
  rw [blocks_of_ne_nil h, decryptChunks_cons cfg _ _ s (by simp)]
  rfl

/-- The recovered chunks are the blocks of the recovered plaintext (R33, R89). -/
theorem blocks_decryptChunks (cfg : Config) (s : Sponge) {ct : List Byte} (h : ct ≠ []) :
    blocks (decryptChunks cfg (blocks ct) s).2 = recoveredChunk s ct ::
      blocks (decryptChunks cfg (blocks (ct.drop 16)) (recoveredState cfg s ct)).2 := by
  have hlen := recoveredChunk_length s ct
  rw [List.length_take] at hlen
  have hpos : 0 < ct.length := List.length_pos_iff.mpr h
  rw [decryptChunks_blocks cfg s h]
  by_cases hshort : ct.length ≤ 16
  · have hne : recoveredChunk s ct ≠ [] := List.length_pos_iff.mp (by omega)
    have hle : (recoveredChunk s ct).length ≤ 16 := by omega
    rw [List.drop_of_length_le hshort, blocks_nil, decryptChunks_nil, blocks_nil, List.append_nil]
    exact blocks_of_short hne hle
  · exact blocks_append_full (by omega)

/-- Absorbing the recovered plaintext leads to the state decryption leads to (R89). -/
theorem encryptChunks_recovered (cfg : Config) (ct : List Byte) (s : Sponge) :
    (encryptChunks cfg (blocks (decryptChunks cfg (blocks ct) s).2) s).1 =
      (decryptChunks cfg (blocks ct) s).1 := by
  induction ct using block_induction generalizing s with
  | nil => rfl
  | step ct h ih =>
    have hlen : (recoveredChunk s ct).length ≤ 16 := by simp [recoveredChunk_length]
    rw [blocks_decryptChunks cfg s h, decryptChunks_blocks cfg s h, encryptChunks_cons _ _ _ _ hlen]
    exact ih (recoveredState cfg s ct)

/-- The recovered chunks are the ciphertext chunks XORed with the keystream chunks (R89). -/
theorem zipWith_keystream_recovered (cfg : Config) (ct : List Byte) (s : Sponge) :
    List.zipWith xorBytes (blocks ct)
        (keystream cfg (blocks (decryptChunks cfg (blocks ct) s).2) s) =
      blocks (decryptChunks cfg (blocks ct) s).2 := by
  induction ct using block_induction generalizing s with
  | nil => rfl
  | step ct h ih =>
    rw [blocks_decryptChunks cfg s h, blocks_of_ne_nil h, keystream, List.zipWith_cons_cons,
      recoveredChunk_length]
    exact congrArg _ (ih (recoveredState cfg s ct))

/-! ### The replay of a message -/

theorem replayPackets_cons (c : List Byte) (cs : List (List Byte)) :
    replayPackets (c :: cs) =
      squeezePacket 0x01 c.length :: absorbPacket 0x03 c :: replayPackets cs := rfl

theorem replayResponses_cons (v : Bool) (k : List Byte) (ks : List (List Byte)) (tag : List Byte) :
    replayResponses v (k :: ks) tag =
      responsePacket .ok .duplex v k :: responsePacket .ok .duplex v [] ::
        replayResponses v ks tag := rfl

/-- Replaying chunks in DUPLEX sends the keystream chunks and then the rate, and leads to the state
aead_encrypt leads to (R52, R87). -/
theorem run_replayPackets {cs : List (List Byte)} (hcs : ∀ c ∈ cs, c.length ≤ 16) {s : State}
    (hp : s.phase = .duplex) (hmax : 16 ≤ s.cfg.maxLen) :
    ∃ t, Host.Core.run Sys2Proof.core (replayPackets cs).length
        (setInbox ((replayPackets cs).map .packet) s) = .next t ∧
      t.outbox = s.outbox ++ replayResponses s.v (keystream s.cfg cs s.sponge)
        (rateBytes (encryptChunks s.cfg cs s.sponge).1) ∧
      t.sponge = (encryptChunks s.cfg cs s.sponge).1 := by
  induction cs generalizing s with
  | nil =>
    refine ⟨_, (run_squeezePacket hp 0x01 le_rfl hmax [] 0).trans (run_zero _), ?_, rfl⟩
    simp [replayResponses, keystream, rateRead_sixteen, hp]
  | cons c cs ih =>
    obtain ⟨hc, hcs⟩ := List.forall_mem_cons.mp hcs
    have hcmax : c.length ≤ s.cfg.maxLen := hc.trans hmax
    have habsorb := run_absorbPacket (s := respond .ok (rateRead s.sponge c.length) s) hp 0x03
      (data := c) (by omega) hcmax
    obtain ⟨t, hrun, hout, hsponge⟩ := ih hcs (s := respond .ok []
      (setSponge (absorb s.cfg s.sponge c 0x03) (respond .ok (rateRead s.sponge c.length) s))) hp hmax
    refine ⟨t, ?_, ?_, ?_⟩
    · rw [replayPackets_cons, List.length_cons, List.length_cons, List.map_cons, List.map_cons,
        run_squeezePacket hp 0x01 hc hcmax]
      exact (habsorb _ _).trans hrun
    · rw [hout, encryptChunks_cons _ _ _ _ hc, keystream, replayResponses_cons]
      simp [hp]
    · rw [hsponge, encryptChunks_cons _ _ _ _ hc]
      rfl

/-- Settles O58: construction packet by packet, and the replay of the plaintext chunks, which for a
ciphertext are the recovered ones. -/
theorem sessionByHandInDuplex : Obligations.SessionByHandInDuplex := by
  refine ⟨fun s key nonce ad hk hn hlen hmax => ?_, fun s pt hp hmax => ?_,
    fun s ct tag hp hmax => ?_⟩
  · have hkn : (key ++ nonce).length = 32 := by rw [List.length_append, hk, hn]
    obtain ⟨u, hu, hsponge, hphase, hv⟩ := run_constructPackets s ad hkn hlen hmax
    exact ⟨_, u, (run_aeadInitPacket hk hn ad hlen hmax [] 0).trans (run_zero _), hu, hsponge, rfl,
      hphase, hv⟩
  · obtain ⟨t, hrun, hout, hsponge⟩ := run_replayPackets (blocks_length_le pt) hp hmax
    rw [aeadEncrypt_eq]
    exact ⟨t, _, hrun, hout, (encryptChunks_eq_keystream _ _ (blocks_length_le pt)).symm, hsponge⟩
  · obtain ⟨t, hrun, hout, hsponge⟩ := run_replayPackets (blocks_length_le _) hp hmax
    rw [encryptChunks_recovered] at hout hsponge
    rw [aeadDecrypt_eq]
    exact ⟨t, _, _, hrun, hout, zipWith_keystream_recovered s.cfg ct s.sponge, eq16_iff _ _,
      hsponge⟩

end Sys2Proof.Machine
end

section
/-! SUPPORT. The word and plane algebra as the rules state it (R56 to R64), and the mirror image of a
state, which exchanges the two lane directions. -/

namespace Sys2Proof.Machine

/-! ### Rotation of a word -/

/-- A rotation carries each bit upwards by its amount, cyclically (R56). -/
theorem rotl32_getLsbD_add (w : Word) (r : Nat) {i : Nat} (hi : i < 32) :
    (rotl32 w r).getLsbD ((i + r) % 32) = w.getLsbD i := by
  have back : ((i + r) % 32 + (32 - r % 32)) % 32 = i := by omega
  rw [rotl32_getLsbD _ _ _ (Nat.mod_lt _ (by decide)), back]

/-- The complementary rotation undoes a rotation on either side, so it is a bijection (R56). -/
theorem rotl32_bijective (r : Nat) : Function.Bijective fun w => rotl32 w r := by
  have right (w : Word) : rotl32 (rotl32 w (32 - r % 32)) r = w := by
    rw [rotl32_rotl32, Nat.add_comm, ← rotl32_rotl32, rotl32_cancel]
  exact Function.bijective_iff_has_inverse.mpr
    ⟨fun w => rotl32 w (32 - r % 32), fun w => rotl32_cancel w r, right⟩

/-- Settles O1: where each bit goes, and the laws of rotation. -/
theorem rotateLeftMovesEachBit : Obligations.RotateLeftMovesEachBit := fun w r =>
  ⟨rfl, fun _ hi => rotl32_getLsbD_add w r hi, rotl32_rotl32 w r, fun u => rotl32_xor w u r,
    fun u => rotl32_and w u r, rotl32_bijective r⟩

/-! ### Planes, lane by lane -/

/-- A lane shift takes lane `x` from the lane whose index is `x - LANE_DIR * t` modulo 4 (R58). -/
theorem laneSource_eq {d : LaneDir} {t : Nat} {x y : Fin 4}
    (h : ((x.val : Int) - laneSign d * (t : Int)) % 4 = y.val) : laneSource d t x = y :=
  Fin.ext (Int.natCast_inj.mp ((laneSource_val d t x).trans h))

/-- Settles O2: the lanes of each operation. -/
theorem planeOperationsActByLane : Obligations.PlaneOperationsActByLane :=
  ⟨rfl, rfl, fun p q x r =>
    ⟨planeGet_planeXor p q x, planeGet_planeAnd p q x, planeGet_planeRotl p r x,
      fun d t _ hy => laneSource_eq hy ▸ planeGet_laneShift d p t x,
      laneShift_plus_one p, laneShift_minus_one p, fun d => laneShift_two d p⟩⟩

/-- Settles O3: both sides have the same rotated source lane at every index. -/
theorem laneShiftCommutesWithRotation : Obligations.LaneShiftCommutesWithRotation :=
  planeRotl_laneShift

/-! ### Byte strings -/

/-- Byte `j` of a byte-wise XOR (R62). -/
theorem xorBytes_getElem? {a b : List Byte} {j : Nat} (ha : j < a.length) (hb : j < b.length) :
    (xorBytes a b)[j]? = some (a.getD j 0 ^^^ b.getD j 0) := by
  simp [xorBytes, ha, hb]

/-- Two strings of equal length are equal when their bytes are (R64). -/
theorem eq_iff_forall_getD {a b : List Byte} (h : a.length = b.length) :
    a = b ↔ ∀ j, j < a.length → a.getD j 0 = b.getD j 0 := by
  refine ⟨fun e j _ => by rw [e], fun hbytes => List.ext_getElem h fun j ha hb => ?_⟩
  rw [← List.getD_eq_getElem a 0 ha, ← List.getD_eq_getElem b 0 hb, hbytes j ha]

/-- Settles O4: byte by byte. -/
theorem byteStringsXorAndCompare : Obligations.ByteStringsXorAndCompare := by
  refine ⟨fun a b h => ⟨?_, fun j hj => xorBytes_getElem? hj (h ▸ hj), xorBytes_cancel a b h.le⟩,
    fun a b ha hb => ?_⟩
  · rw [xorBytes_length, h, Nat.min_self]
  · rw [eq16_iff, eq_iff_forall_getD (ha.trans hb.symm), ha]

/-! ### The mirror image -/

/-- The reflection takes lane `x` from lane `-x mod 4` (95_test_vectors.md section 3.4). -/
@[simp] theorem planeGet_reflectPlane (p : Plane) (x : Fin 4) :
    planeGet (reflectPlane p) x = planeGet p (-x) := by
  fin_cases x <;> rfl

theorem reflectPlane_planeXor (p q : Plane) :
    reflectPlane (planeXor p q) = planeXor (reflectPlane p) (reflectPlane q) := rfl

theorem reflectPlane_planeRotl (p : Plane) (r : Nat) :
    reflectPlane (planeRotl p r) = planeRotl (reflectPlane p) r := rfl

/-- The source lanes of the two directions are each other's negatives. -/
theorem neg_laneSource_minus (t : Nat) (x : Fin 4) :
    -laneSource .minus t x = laneSource .plus t (-x) := by
  have hm := laneSource_val .minus t x
  have hp := laneSource_val .plus t (-x)
  simp only [laneSign] at hm hp
  rw [Fin.ext_iff]
  simp only [Fin.val_neg'] at hp ⊢
  omega

/-- The reflection exchanges the two directions of a lane shift. -/
theorem laneShift_minus_reflectPlane (p : Plane) (t : Nat) :
    laneShift .minus (reflectPlane p) t = reflectPlane (laneShift .plus p t) :=
  plane_ext fun x => by simp [neg_laneSource_minus]

/-! Each step of a round, on the mirror image. -/

theorem parity_reflectSponge (s : Sponge) : parity (reflectSponge s) = reflectPlane (parity s) := rfl

theorem thetaEffect_minus_reflectPlane (p : Plane) :
    thetaEffect .minus (reflectPlane p) = reflectPlane (thetaEffect .plus p) := by
  simp only [thetaEffect, laneShift_minus_reflectPlane, reflectPlane_planeXor, reflectPlane_planeRotl]

theorem theta_minus_reflectSponge (s : Sponge) :
    theta .minus (reflectSponge s) = reflectSponge (theta .plus s) := by
  simp only [theta, parity_reflectSponge, thetaEffect_minus_reflectPlane]
  rfl

theorem rhoWest_minus_reflectSponge (s : Sponge) :
    rhoWest .minus (reflectSponge s) = reflectSponge (rhoWest .plus s) :=
  sponge_ext rfl (laneShift_minus_reflectPlane s.a1 1) rfl

/-- The round constant stands in lane 0, which the reflection leaves in place. -/
theorem addRoundConstant_reflectSponge (c : Word) (s : Sponge) :
    addRoundConstant c (reflectSponge s) = reflectSponge (addRoundConstant c s) := rfl

theorem chi_reflectSponge (s : Sponge) : chi (reflectSponge s) = reflectSponge (chi s) := rfl

theorem rhoEast_minus_reflectSponge (s : Sponge) :
    rhoEast .minus (reflectSponge s) = reflectSponge (rhoEast .plus s) :=
  sponge_ext rfl rfl (congrArg (planeRotl · 8) (laneShift_minus_reflectPlane s.a2 2))

theorem roundFn_minus_reflectSponge (cfg : Config) (s : Sponge) (i : Fin 12) :
    roundFn { cfg with laneDir := .minus } (reflectSponge s) i =
      reflectSponge (roundFn { cfg with laneDir := .plus } s i) := by
  simp only [roundFn, theta_minus_reflectSponge, rhoWest_minus_reflectSponge,
    addRoundConstant_reflectSponge, chi_reflectSponge, rhoEast_minus_reflectSponge]

/-- Settles O10: every round of one direction is the mirror image of the round of the other. -/
theorem laneDirectionsMirrorEachOther : Obligations.LaneDirectionsMirrorEachOther := fun cfg _ =>
  List.foldl_hom reflectSponge (roundFn_minus_reflectSponge cfg)

end Sys2Proof.Machine
end

section
/-! SUPPORT. The permutation core step by step (R65 to R73), and two states that no round tells apart
(R70). -/

namespace Sys2Proof.Machine

/-! ### theta -/

theorem planeXor_planeXor_planeXor_comm (p q r t : Plane) :
    planeXor (planeXor p q) (planeXor r t) = planeXor (planeXor p r) (planeXor q t) := by
  rw [planeXor_assoc, planeXor_left_comm q, ← planeXor_assoc]

/-- A plane XORed into two planes leaves their XOR. -/
theorem planeXor_planeXor_right (p q e : Plane) :
    planeXor (planeXor p e) (planeXor q e) = planeXor p q := by
  rw [planeXor_planeXor_planeXor_comm, planeXor_self, planeXor_zero]

/-- theta XORs the same plane E into each plane (R65). -/
theorem spongePlane_theta (d : LaneDir) (s : Sponge) (y : Fin 3) :
    spongePlane (theta d s) y = planeXor (spongePlane s y) (thetaEffect d (parity s)) := by
  fin_cases y <;> rfl

/-- E combines two rotations of the parity's neighbouring lane (R65). -/
theorem planeGet_thetaEffect (d : LaneDir) (p : Plane) (x : Fin 4) :
    planeGet (thetaEffect d p) x =
      rotl32 (planeGet p (laneSource d 1 x)) 5 ^^^ rotl32 (planeGet p (laneSource d 1 x)) 14 := by
  simp [thetaEffect]

theorem planeGet_parity (s : Sponge) (x : Fin 4) :
    planeGet (parity s) x = planeGet s.a0 x ^^^ planeGet s.a1 x ^^^ planeGet s.a2 x := by
  simp [parity]

/-- A shift by one takes lane `x` from the lane whose index is `x - LANE_DIR` modulo 4 (R58). -/
theorem laneSource_one_eq {d : LaneDir} {x z : Fin 4}
    (h : ((x.val : Int) - laneSign d) % 4 = z.val) : laneSource d 1 x = z :=
  laneSource_eq (by rwa [Nat.cast_one, Int.mul_one])

theorem theta_of_parity_eq_zero (d : LaneDir) {s : Sponge} (h : parity s = zeroPlane) :
    theta d s = s := by
  simp [theta, h]

theorem parity_spongeXor (s t : Sponge) :
    parity (spongeXor s t) = planeXor (parity s) (parity t) := by
  rw [parity, spongeXor, planeXor_planeXor_planeXor_comm s.a0, planeXor_planeXor_planeXor_comm]
  rfl

theorem theta_spongeXor (d : LaneDir) (s t : Sponge) :
    theta d (spongeXor s t) = spongeXor (theta d s) (theta d t) := by
  simp only [theta, parity_spongeXor, thetaEffect_planeXor]
  simp only [spongeXor, planeXor_planeXor_planeXor_comm]

/-- Two of the three copies of E cancel in the parity (R65). -/
theorem parity_theta (d : LaneDir) (s : Sponge) :
    parity (theta d s) = planeXor (parity s) (thetaEffect d (parity s)) := by
  rw [parity, theta, planeXor_planeXor_right, ← planeXor_assoc, ← parity]

/-- Settles O5: the plane E lane by lane, and how E cancels. -/
theorem thetaByLane : Obligations.ThetaByLane := by
  refine ⟨fun d s y x z hz => ?_, theta_of_parity_eq_zero, theta_spongeXor, fun d s =>
    ⟨planeXor_planeXor_right _ _ _, planeXor_planeXor_right _ _ _, parity_theta d s⟩⟩
  rw [spongePlane_theta, planeGet_planeXor, planeGet_thetaEffect, laneSource_one_eq hz,
    planeGet_parity]

/-! ### rho-west, add-round-constant and rho-east -/

theorem laneSource_laneSource (d : LaneDir) (a b : Nat) (x : Fin 4) :
    laneSource d a (laneSource d b x) = laneSource d (a + b) x := by
  apply Eq.symm
  apply laneSource_eq
  rw [laneSource_val, laneSource_val, Nat.cast_add, Int.mul_add, Int.emod_sub_emod]
  congr 1
  omega

/-- Lane shifts compose by adding their amounts. -/
theorem laneShift_laneShift (d : LaneDir) (p : Plane) (a b : Nat) :
    laneShift d (laneShift d p a) b = laneShift d p (a + b) :=
  plane_ext fun x => by simp [laneSource_laneSource]

/-- A lane shift by a multiple of four is the identity. -/
theorem laneShift_of_mod (d : LaneDir) (p : Plane) {t : Nat} (h : t % 4 = 0) :
    laneShift d p t = p := by
  refine plane_ext fun x => ?_
  have hx : laneSource d t x = x := laneSource_eq (by cases d <;> simp only [laneSign] <;> omega)
  rw [planeGet_laneShift, hx]

/-- The shift by three times the amount undoes a lane shift on either side. -/
theorem laneShift_bijective (d : LaneDir) (t : Nat) : Function.Bijective (laneShift d · t) := by
  refine Function.bijective_iff_has_inverse.mpr ⟨(laneShift d · (3 * t)), fun p => ?_, fun p => ?_⟩
  · exact (laneShift_laneShift d p t (3 * t)).trans (laneShift_of_mod d p (by omega))
  · exact (laneShift_laneShift d p (3 * t) t).trans (laneShift_of_mod d p (by omega))

/-- A rotation of every lane is a bijection, because the rotation of a word is. -/
theorem planeRotl_bijective (r : Nat) : Function.Bijective (planeRotl · r) := by
  refine ⟨fun p q h => plane_ext fun x => (rotl32_bijective r).injective ?_, fun q => ?_⟩
  · simpa using congrArg (planeGet · x) h
  · choose w hw using (rotl32_bijective r).surjective
    exact ⟨planeOf fun x => w (planeGet q x), plane_ext fun x => by simp [hw]⟩

/-- A step that leaves the rate alone and maps each plane of the capacity bijectively is a bijection. -/
theorem capacityMap_bijective {f g : Plane → Plane} (hf : Function.Bijective f)
    (hg : Function.Bijective g) :
    Function.Bijective fun s : Sponge => (⟨s.a0, f s.a1, g s.a2⟩ : Sponge) := by
  refine ⟨fun s t h => ?_, fun t => ?_⟩
  · obtain ⟨h0, h1, h2⟩ := Sponge.mk.inj h
    exact sponge_ext h0 (hf.injective h1) (hg.injective h2)
  · obtain ⟨p, hp⟩ := hf.surjective t.a1
    obtain ⟨q, hq⟩ := hg.surjective t.a2
    exact ⟨⟨t.a0, p, q⟩, sponge_ext rfl hp hq⟩

theorem rhoWest_bijective (d : LaneDir) : Function.Bijective (rhoWest d) :=
  capacityMap_bijective (laneShift_bijective d 1) (planeRotl_bijective 11)

theorem rhoEast_bijective (d : LaneDir) : Function.Bijective (rhoEast d) :=
  capacityMap_bijective (planeRotl_bijective 1)
    ((planeRotl_bijective 8).comp (laneShift_bijective d 2))

theorem rhoWest_onesSponge (d : LaneDir) : rhoWest d onesSponge = onesSponge := by
  cases d <;> rfl

/-- A shift by two takes lane `x` from lane `x + 2`, in both directions (R58, R69). -/
theorem laneSource_two (d : LaneDir) (x : Fin 4) : laneSource d 2 x = x + 2 := by
  cases d <;> decide +revert

theorem spongeWord_addRoundConstant_of_ne (c : Word) (s : Sponge) {k : Fin 12} (hk : k ≠ 0) :
    spongeWord (addRoundConstant c s) k = spongeWord s k := by
  fin_cases k
  · exact absurd rfl hk
  all_goals rfl

/-- The round constant is a mask on lane 0 of the rate (R67). -/
theorem addRoundConstant_eq_xorRate (c : Word) (s : Sponge) :
    addRoundConstant c s = xorRate ⟨c, 0, 0, 0⟩ s := by
  simp [addRoundConstant, xorRate, planeXor]

theorem addRoundConstant_addRoundConstant (c : Word) (s : Sponge) :
    addRoundConstant c (addRoundConstant c s) = s := by
  simp only [addRoundConstant_eq_xorRate, xorRate_xorRate]
  simp [xorRate]

theorem addRoundConstant_zero (s : Sponge) : addRoundConstant 0 s = s := by
  simp [addRoundConstant]

/-- Settles O6: the lanes of the three steps, and the inverses of the two rho steps. -/
theorem linearStepsByLane : Obligations.LinearStepsByLane := by
  refine ⟨fun d s x z hz => ⟨rfl, ?_, planeGet_planeRotl s.a2 11 x⟩,
    fun d => ⟨rhoWest_bijective d, rhoWest_zeroSponge d, rhoWest_onesSponge d⟩,
    fun cfg i s => ⟨rfl, fun k => spongeWord_addRoundConstant_of_ne _ s,
      addRoundConstant_addRoundConstant _ s, fun h => h ▸ addRoundConstant_zero s⟩,
    fun d s x => ⟨rfl, planeGet_planeRotl s.a1 1 x, ?_, planeRotl_laneShift d s.a2 2 8⟩,
    rhoEast_bijective⟩
  · exact laneSource_one_eq hz ▸ planeGet_laneShift d s.a1 1 x
  · rw [← laneSource_two d x, ← planeGet_laneShift]
    exact planeGet_planeRotl (laneShift d s.a2 2) 8 x

/-! ### chi -/

/-- The column of a state at lane `x` and bit `i` (R68). -/
def columnOf (s : Sponge) (x : Fin 4) (i : Nat) : Bool × Bool × Bool :=
  ((planeGet s.a0 x).getLsbD i, (planeGet s.a1 x).getLsbD i, (planeGet s.a2 x).getLsbD i)

/-- What chi makes of one column (R68). -/
def chiColumn : Bool × Bool × Bool → Bool × Bool × Bool
  | (a, b, c) => (a ^^ (b && c), b ^^ (c && a), c ^^ (a && b))

theorem columnOf_chi (s : Sponge) (x : Fin 4) (i : Nat) :
    columnOf (chi s) x i = chiColumn (columnOf s x i) := by
  simp [columnOf, chiColumn, chi]

theorem chi_zeroSponge : chi zeroSponge = zeroSponge := rfl

theorem chi_onesSponge : chi onesSponge = zeroSponge := rfl

/-- Settles O7: each row of the table is `chiColumn` of its old column. -/
theorem chiByColumn : Obligations.ChiByColumn := by
  refine ⟨fun s x i => ?_, chi_zeroSponge, chi_onesSponge⟩
  have row {old : Bool × Bool × Bool} (h : columnOf s x i = old) :
      columnOf (chi s) x i = chiColumn old := h ▸ columnOf_chi s x i
  exact ⟨columnOf_chi s x i, row, row, row, row, row, row, row, row⟩

/-! ### The round and the twelve rounds -/

/-- Folding over the indices in ascending order reaches the end of every chain of the steps. -/
theorem foldl_finRange_of_chain {α : Type} {n : Nat} {g : α → Fin n → α} {f : Nat → α}
    (h : ∀ i : Fin n, f (i.val + 1) = g (f i.val) i) : (List.finRange n).foldl g (f 0) = f n := by
  induction n with
  | zero => rfl
  | succ n ih =>
    rw [List.finRange_succ_last, List.foldl_append, List.foldl_map,
      ih (g := fun a i => g a i.castSucc) fun i => h i.castSucc]
    exact (h (Fin.last n)).symm

@[simp] theorem planeAnd_zeroPlane (p : Plane) : planeAnd p zeroPlane = zeroPlane :=
  plane_ext fun x => by simp

@[simp] theorem zeroPlane_planeAnd (p : Plane) : planeAnd zeroPlane p = zeroPlane :=
  plane_ext fun x => by simp

/-- With an empty capacity every product of chi is zero (R71). -/
theorem chi_of_zero_capacity (p : Plane) :
    chi ⟨p, zeroPlane, zeroPlane⟩ = ⟨p, zeroPlane, zeroPlane⟩ := by
  simp [chi]

theorem rhoEast_of_zero_capacity (d : LaneDir) (p : Plane) :
    rhoEast d ⟨p, zeroPlane, zeroPlane⟩ = ⟨p, zeroPlane, zeroPlane⟩ := by
  simp [rhoEast]

theorem addRoundConstant_zeroSponge (c : Word) :
    addRoundConstant c zeroSponge = ⟨⟨c, 0, 0, 0⟩, zeroPlane, zeroPlane⟩ := by
  simp [addRoundConstant, zeroSponge, zeroPlane]

/-- A round on Z leaves its constant in S[0] and eleven zero words (R71). -/
theorem roundFn_zeroSponge (cfg : Config) (i : Fin 12) :
    roundFn cfg zeroSponge i = ⟨⟨cfg.rc.get i, 0, 0, 0⟩, zeroPlane, zeroPlane⟩ := by
  rw [roundFn, theta_zeroSponge, rhoWest_zeroSponge, addRoundConstant_zeroSponge,
    chi_of_zero_capacity, rhoEast_of_zero_capacity]

/-- Settles O8: permute folds the rounds over the ascending indices. -/
theorem roundsRunInOrder : Obligations.RoundsRunInOrder := fun cfg =>
  ⟨fun _ _ => rfl,
    fun f hf => (permute_eq_foldl cfg (f 0)).trans (foldl_finRange_of_chain hf),
    roundFn_zeroSponge cfg⟩

/-! ### Two states with the same rounds -/

/-- A state whose lane 1 holds the columns (1, 1, 0). Like `collisionRight` it has a zero parity plane and
whole words of ones or zeros, plane 1 all ones: theta and rho-west leave both as they are, whatever
LANE_DIR is. -/
def collisionLeft : Sponge :=
  ⟨⟨0xFFFFFFFF, 0xFFFFFFFF, 0xFFFFFFFF, 0xFFFFFFFF⟩,
   ⟨0xFFFFFFFF, 0xFFFFFFFF, 0xFFFFFFFF, 0xFFFFFFFF⟩, zeroPlane⟩

/-- The same state with the columns (0, 1, 1) in lane 1, which RC does not touch (R67). chi takes both
columns to (1, 1, 1) (R68). -/
def collisionRight : Sponge :=
  ⟨⟨0xFFFFFFFF, 0, 0xFFFFFFFF, 0xFFFFFFFF⟩,
   ⟨0xFFFFFFFF, 0xFFFFFFFF, 0xFFFFFFFF, 0xFFFFFFFF⟩, ⟨0, 0xFFFFFFFF, 0, 0⟩⟩

theorem collisionLeft_ne_collisionRight : collisionLeft ≠ collisionRight := by decide

theorem rhoWest_theta_collisionLeft (d : LaneDir) :
    rhoWest d (theta d collisionLeft) = collisionLeft := by
  rw [theta_of_parity_eq_zero d (by decide)]
  cases d <;> rfl

theorem rhoWest_theta_collisionRight (d : LaneDir) :
    rhoWest d (theta d collisionRight) = collisionRight := by
  rw [theta_of_parity_eq_zero d (by decide)]
  cases d <;> rfl

theorem chi_addRoundConstant_collision (c : Word) :
    chi (addRoundConstant c collisionLeft) = chi (addRoundConstant c collisionRight) := by
  simp [chi, addRoundConstant, collisionLeft, collisionRight, planeXor, planeAnd, zeroPlane]

/-- Every round takes the two states to the same state, for every RC and LANE_DIR (R70). -/
theorem roundFn_collision (cfg : Config) (i : Fin 12) :
    roundFn cfg collisionLeft i = roundFn cfg collisionRight i := by
  rw [roundFn, roundFn, rhoWest_theta_collisionLeft, rhoWest_theta_collisionRight,
    chi_addRoundConstant_collision]

/-- The first round has made the two states one (R70, R72). -/
theorem permute_collision (cfg : Config) : permute cfg collisionLeft = permute cfg collisionRight := by
  simp only [permute, roundIndices, List.foldl_cons, roundFn_collision]

/-- Settles O9: chi takes Z and F to Z, and the two collision states have the same rounds. -/
theorem permutationIsNotInjective : Obligations.PermutationIsNotInjective := by
  refine ⟨fun h => ?_, fun cfg => ⟨fun i h => ?_, fun h => ?_⟩⟩
  · exact absurd (h (chi_zeroSponge.trans chi_onesSponge.symm)) (by decide)
  · exact collisionLeft_ne_collisionRight (h (roundFn_collision cfg i))
  · exact collisionLeft_ne_collisionRight (h (permute_collision cfg))

end Sys2Proof.Machine
end

section
/-! SUPPORT. The Duplex Engine's functions and commands (R75 to R83): absorb by the shape of its operand,
padding, prefixes of a squeeze, and the outcomes of DUP_INIT, ABSORB and SQUEEZE. -/

namespace Sys2Proof.Machine

/-! ### absorb, block by block -/

@[simp] theorem xorRate_zeroPlane (s : Sponge) : xorRate zeroPlane s = s :=
  sponge_ext (planeXor_zero s.a0) rfl rfl

@[simp] theorem domMask_zero : domMask 0x00 = zeroPlane := by decide

theorem injectBlock_of_short (dom : Byte) (s : Sponge) {blk : List Byte} (h : blk.length < 16) :
    injectBlock dom s blk = domXor dom (padXor blk.length (rateXor blk s)) := by
  rw [injectBlock, if_pos h]

theorem injectBlock_of_full (dom : Byte) (s : Sponge) {blk : List Byte} (h : blk.length = 16) :
    injectBlock dom s blk = domXor dom (rateXor blk s) := by
  rw [injectBlock, if_neg (Nat.not_lt.mpr h.ge)]

theorem absorb_short (cfg : Config) (s : Sponge) {data : List Byte} (dom : Byte)
    (hpos : 1 ≤ data.length) (h : data.length < 16) :
    absorb cfg s data dom = permute cfg (domXor dom (padXor data.length (rateXor data s))) := by
  rw [absorb_one_block cfg s dom (List.length_pos_iff.mp hpos) h.le, absorbBlock,
    injectBlock_of_short dom s h]

theorem absorb_full (cfg : Config) (s : Sponge) {data : List Byte} (dom : Byte)
    (h : data.length = 16) :
    absorb cfg s data dom = permute cfg (domXor dom (rateXor data s)) := by
  rw [absorb_one_block cfg s dom (List.length_pos_iff.mp (by omega)) h.le, absorbBlock,
    injectBlock_of_full dom s h]

theorem absorb_long (cfg : Config) (s : Sponge) {data : List Byte} (dom : Byte)
    (h : 16 < data.length) :
    absorb cfg s data dom =
      absorb cfg (permute cfg (domXor dom (rateXor (data.take 16) s))) (data.drop 16) dom := by
  have htake : (data.take 16).length = 16 := List.length_take_of_le h.le
  have hdrop : data.drop 16 ≠ [] := by simpa using h
  have hcut := absorb_append_full cfg s dom htake hdrop
  rwa [List.take_append_drop, absorbBlock, injectBlock_of_full dom s htake] at hcut

theorem padXor_rateXor_comm (m : Nat) (data : List Byte) (s : Sponge) :
    padXor m (rateXor data s) = rateXor data (padXor m s) :=
  xorRate_comm _ _ s

/-- The three XOR steps of a block in the opposite order (R76). -/
theorem domXor_padXor_rateXor_comm (dom : Byte) (m : Nat) (data : List Byte) (s : Sponge) :
    domXor dom (padXor m (rateXor data s)) = rateXor data (padXor m (domXor dom s)) := by
  calc domXor dom (padXor m (rateXor data s))
      = domXor dom (rateXor data (padXor m s)) := by rw [padXor_rateXor_comm]
    _ = rateXor data (domXor dom (padXor m s)) := xorRate_comm _ _ _
    _ = rateXor data (padXor m (domXor dom s)) := congrArg _ (xorRate_comm _ _ _)

/-- In a block of 15 bytes the padding bit and the domain byte share rate byte 15 (R76). -/
theorem rateBytes_inject_fifteen (dom : Byte) (s : Sponge) {data : List Byte} (h : data.length = 15) :
    (rateBytes (domXor dom (padXor 15 (rateXor data s)))).getD 15 0 =
      (rateBytes s).getD 15 0 ^^^ (0x01 ^^^ dom) := by
  have hlast : 15 < 16 := by decide
  have hmissing : data.getD 15 0 = 0 := List.getD_eq_default _ _ h.le
  simp only [domXor, padXor, rateXor, rateBytes_xorRate _ _ _ hlast, planeBytes_domMask _ _ hlast,
    planeBytes_padMask _ _ hlast hlast, planeBytes_blockPlane _ _ hlast, hmissing, if_pos]
  exact (BitVec.xor_assoc _ _ _).trans (congrArg (· ^^^ (0x01 ^^^ dom)) BitVec.xor_zero)

/-- Settles O13: the operand by its length, and the chain of masks of its blocks. -/
theorem absorbBlockByBlock : Obligations.AbsorbBlockByBlock :=
  ⟨fun cfg s dom data => ⟨absorb_nil cfg s dom, absorb_full cfg s dom, absorb_short cfg s dom,
      absorb_long cfg s dom,
      fun m => ⟨domXor_padXor_rateXor_comm dom m data s, padXor_rateXor_comm m data s⟩,
      rateBytes_inject_fifteen dom s, by rw [domXor, domMask_zero, xorRate_zeroPlane]⟩,
    fun data dom => ⟨absorbMasks dom data, absorbMasks_length dom data,
      fun cfg s => absorb_eq_rateChain cfg s data dom⟩⟩

/-! ### Padding -/

theorem padded_append_full {b : List Byte} (hb : b.length = 16) (data : List Byte) :
    padded (b ++ data) = b ++ padded data := by
  simp [padded, hb]

theorem padded_ne_nil (x : List Byte) : padded x ≠ [] := by simp [padded]

theorem padded_length_of_short {x : List Byte} (h : x.length < 16) : (padded x).length = 16 := by
  simp only [padded, List.length_append, List.length_cons, List.length_replicate]
  omega

/-- Byte `j` of a padded operand: its own byte, the padding byte behind its end, or zero (R83). -/
theorem padded_getD (x : List Byte) (j : Nat) :
    (padded x).getD j 0 = x.getD j 0 ^^^ if j = x.length then 1 else 0 := by
  rcases Nat.lt_trichotomy j x.length with hj | rfl | hj
  · rw [padded, List.getD_append _ _ _ _ hj, if_neg hj.ne]
    exact BitVec.xor_zero.symm
  · rw [padded, List.getD_append_right _ _ _ _ le_rfl, List.getD_eq_default _ _ le_rfl, Nat.sub_self,
      List.getD_cons_zero, if_pos rfl]
    rfl
  · obtain ⟨k, hk⟩ : ∃ k, j - x.length = k + 1 := ⟨j - x.length - 1, by omega⟩
    rw [padded, List.getD_append_right _ _ _ _ hj.le, List.getD_eq_default _ _ hj.le, hk,
      List.getD_cons_succ, List.getD_eq_getElem?_getD,
      List.getElem?_getD_replicate_default_eq, if_neg hj.ne']
    rfl

/-- The words of a padded short block are those of the block with the padding bit (R31, R83). -/
theorem blockPlane_padded {x : List Byte} (h : x.length < 16) :
    blockPlane (padded x) = planeXor (blockPlane x) (padMask x.length) := by
  refine plane_ext_bytes fun j hj => ?_
  rw [planeBytes_planeXor_getD _ _ j hj, planeBytes_blockPlane _ j hj, planeBytes_blockPlane _ j hj,
    planeBytes_padMask _ j h hj, padded_getD]

theorem padXor_rateXor_eq_rateXor_padded {x : List Byte} (h : x.length < 16) (s : Sponge) :
    padXor x.length (rateXor x s) = rateXor (padded x) s := by
  rw [padXor, rateXor, rateXor, xorRate_xorRate, blockPlane_padded h]

/-- Both operands have the same blocks before the last, and the last ones put the same mask on the
rate (R83). -/
theorem absorb_padded (cfg : Config) (dom : Byte) (x : List Byte) (h : x.length % 16 ≠ 0) :
    ∀ s, absorb cfg s x dom = absorb cfg s (padded x) dom := by
  induction x using block_induction with
  | nil => exact absurd rfl h
  | step x hx ih =>
    intro s
    by_cases hlen : x.length < 16
    · rw [absorb_short cfg s dom (List.length_pos_iff.mpr hx) hlen,
        absorb_full cfg s dom (padded_length_of_short hlen), padXor_rateXor_eq_rateXor_padded hlen]
    · have htake : (x.take 16).length = 16 := List.length_take_of_le (by omega)
      have hrest : (x.drop 16).length % 16 ≠ 0 := by
        rw [List.length_drop]
        omega
      have hdrop : x.drop 16 ≠ [] := fun e => hrest (by rw [e]; rfl)
      rw [← List.take_append_drop 16 x, padded_append_full htake,
        absorb_append_full cfg s dom htake hdrop, absorb_append_full cfg s dom htake (padded_ne_nil _),
        ih hrest]

/-- Sixteen zero bytes are one block with no padding bit, and so is the empty operand (R83). -/
theorem absorb_nil_eq_absorb_zeros (cfg : Config) (s : Sponge) (dom : Byte) :
    absorb cfg s [] dom = absorb cfg s (List.replicate 16 0x00) dom := by
  have hzeros : blockPlane (List.replicate 16 0x00) = zeroPlane := by decide
  rw [absorb_full cfg s dom List.length_replicate, rateXor, hzeros, xorRate_zeroPlane, absorb_nil]

/-- Settles O14. -/
theorem paddingDoesNotSeparateOperands : Obligations.PaddingDoesNotSeparateOperands :=
  fun cfg s dom x => ⟨fun h => absorb_padded cfg dom x h s, absorb_nil_eq_absorb_zeros cfg s dom⟩

/-! ### squeeze -/

/-- Settles O15: by the two cases of squeeze, its length and its chain of domain masks. -/
theorem squeezeBlockByBlock : Obligations.SqueezeBlockByBlock := fun cfg s len dom =>
  ⟨squeeze_short cfg s dom, fun h => by rw [squeeze_long cfg s dom h]; exact ⟨rfl, rfl⟩,
    squeeze_length cfg dom len s, squeeze_eq_rateChain cfg dom len s⟩

theorem rateRead_isPrefix (s : Sponge) {a b : Nat} (h : a ≤ b) : rateRead s a <+: rateRead s b := by
  rw [← rateRead_take s h]
  exact List.take_prefix _ _

/-- The first bytes of a squeeze do not depend on how many follow (R81). -/
theorem squeeze_isPrefix (cfg : Config) (dom : Byte) (a : Nat) : ∀ (b : Nat) (s : Sponge), a ≤ b →
    (squeeze cfg s a dom).2 <+: (squeeze cfg s b dom).2 := by
  induction a using squeeze_induction with
  | short a ha =>
    intro b s hab
    rw [squeeze_short cfg s dom ha]
    by_cases hb : b ≤ 16
    · rw [squeeze_short cfg s dom hb]
      exact rateRead_isPrefix s hab
    · rw [squeeze_long cfg s dom (Nat.lt_of_not_le hb)]
      exact (rateRead_isPrefix s ha).trans (List.prefix_append _ _)
  | long a ha ih =>
    intro b s hab
    rw [squeeze_long cfg s dom ha, squeeze_long cfg s dom (ha.trans_le hab)]
    exact (List.prefix_append_right_inj _).mpr (ih (b - 16) _ (Nat.sub_le_sub_right hab 16))

/-- Settles O16. -/
theorem shorterSqueezeIsAPrefix : Obligations.ShorterSqueezeIsAPrefix := fun cfg s a b dom =>
  ⟨squeeze_isPrefix cfg dom a b s, fun ha => ⟨by rw [squeeze_short cfg s dom ha],
    fun dom' => by rw [squeeze_short cfg s dom ha, squeeze_short cfg s dom' ha]⟩⟩

/-! ### Legal and illegal headers -/

section
variable {o : Opcode} {dom r2 r3 : Byte} (n0 n1 n2 n3 : Byte) (payload : List Byte)

/-- A header with an assigned opcode, RSV = 0 and a DOM its command takes is a command (R42, R48). -/
theorem decode_of_legal_header (hr : r2 = 0 ∧ r3 = 0) (hdom : takesDom o = true ∨ dom = 0) :
    decode (opcodeByte o :: dom :: r2 :: r3 :: n0 :: n1 :: n2 :: n3 :: payload) =
      .ok (buildInstr o dom (le32 n0 n1 n2 n3) payload) :=
  (decode_header_eq_ok_iff ..).mpr ⟨o, rfl, hr, hdom, rfl⟩

/-- A header whose RSV is not zero, or with a DOM its command does not take, is answered ERR_ILLEGAL
(R48, R97). -/
theorem step_of_illegal_header (h : ¬ ((r2 = 0 ∧ r3 = 0) ∧ (takesDom o = true ∨ dom = 0)))
    (rest : List Input) (s : State) :
    step (setInbox
        (.packet (opcodeByte o :: dom :: r2 :: r3 :: n0 :: n1 :: n2 :: n3 :: payload) :: rest) s) =
      errorOutcome .errIllegal (setInbox rest s) := by
  rw [step_of_packet (setInbox_inbox _ s)]
  cases hd : decode (opcodeByte o :: dom :: r2 :: r3 :: n0 :: n1 :: n2 :: n3 :: payload) with
  | error e => exact runPacket_of_error hd _
  | ok i =>
    obtain ⟨o', ho, hr, hdom, -⟩ := (decode_header_eq_ok_iff ..).mp hd
    obtain rfl := opcodeByte_injective ho
    exact absurd ⟨hr, hdom⟩ h

end

/-! ### The length test of each command (R43, R45) -/

section
variable (cfg : Config) (dom : Byte) (len : Word) (payload : List Byte)

theorem inputOk_eq_true_iff (i : Instr) :
    inputOk cfg i = true ↔ i.len.toNat ≤ cfg.maxLen ∧ i.wellFormed = true := by
  rw [inputOk_eq, Bool.and_eq_true, decide_eq_true_eq]

theorem inputOk_dupInit_iff :
    inputOk cfg (.dupInit len payload) = true ↔ len = 0 ∧ payload = [] := by
  simp only [inputOk_eq_true_iff, Instr.wellFormed, Instr.len, Bool.and_eq_true, beq_iff_eq,
    List.isEmpty_iff, and_iff_right_iff_imp]
  rintro ⟨rfl, -⟩
  exact Nat.zero_le _

theorem inputOk_absorb_iff :
    inputOk cfg (.absorb dom len payload) = true ↔
      len.toNat ≤ cfg.maxLen ∧ payload.length = len.toNat :=
  (inputOk_eq_true_iff cfg _).trans (and_congr_right' beq_iff_eq)

theorem inputOk_squeeze_iff :
    inputOk cfg (.squeeze dom len payload) = true ↔ len.toNat ≤ cfg.maxLen ∧ payload = [] :=
  (inputOk_eq_true_iff cfg _).trans (and_congr_right' List.isEmpty_iff)

end

/-! ### The commands -/

/-- DUP_INIT is accepted in every phase (R75). -/
theorem exec_dupInit (s : State) :
    exec (.dupInit 0 []) s = .next (respond .ok [] (effectDupInit s).1) :=
  exec_ok rfl ((inputOk_dupInit_iff s.cfg 0 []).mpr ⟨rfl, rfl⟩)

/-- Settles O17: the effect of an accepted DUP_INIT does not depend on S, PHASE or V. -/
theorem dupInitConstructs : Obligations.DupInitConstructs := by
  intro s
  refine ⟨(exec_dupInit s).trans ?_, fun len payload h => exec_errInput rfl ?_, fun t u ht hu => ?_,
    fun dom r2 r3 n0 n1 n2 n3 payload => ⟨fun ⟨hdom, hr⟩ => ?_, fun h rest => ?_⟩⟩
  · rw [respond, responsePacket_nil]
    rfl
  · rw [← Bool.not_eq_true, inputOk_dupInit_iff, not_and_or]
    exact h
  · obtain rfl := Host.Outcome.next.inj ((exec_dupInit s).symm.trans ht)
    obtain rfl := Host.Outcome.next.inj ((exec_dupInit _).symm.trans hu)
    exact ⟨rfl, rfl, rfl⟩
  · exact decode_of_legal_header (o := .dupInit) n0 n1 n2 n3 payload hr (.inr hdom)
  · refine step_of_illegal_header (o := .dupInit) n0 n1 n2 n3 payload (fun ⟨hr, hdom⟩ => h ?_) rest s
    exact ⟨hdom.resolve_left nofun, hr⟩

/-- Settles O18: the three outcomes of the command, and its header. -/
theorem absorbCommandAbsorbs : Obligations.AbsorbCommandAbsorbs := by
  intro s dom len data
  refine ⟨fun hp hlen hmax => ?_, fun hp => ?_, fun hp hbad => ?_, fun r2 r3 n0 n1 n2 n3 =>
    ⟨fun hr => ?_, fun h rest => ?_⟩⟩
  · exact exec_ok (beq_iff_eq.mpr hp) ((inputOk_absorb_iff s.cfg dom len data).mpr ⟨hmax, hlen⟩)
  · exact exec_errPhase ((accepts_eq_false_iff .absorb s.phase).mpr (.inl ⟨.inl rfl, hp⟩))
  · refine exec_errInput (beq_iff_eq.mpr hp) ?_
    rw [← Bool.not_eq_true, inputOk_absorb_iff, not_and_or, not_le]
    exact hbad.symm
  · exact decode_of_legal_header (o := .absorb) n0 n1 n2 n3 data hr (.inl rfl)
  · exact step_of_illegal_header (o := .absorb) n0 n1 n2 n3 data (fun hl => h hl.1) rest s

/-- Settles O19: the three outcomes of the command, and its header. -/
theorem squeezeCommandSqueezes : Obligations.SqueezeCommandSqueezes := by
  intro s dom len payload
  refine ⟨fun hp hpl hmax => ?_, fun hp => ?_, fun hp hbad => ?_, fun r2 r3 n0 n1 n2 n3 =>
    ⟨fun hr => ?_, fun h rest => ?_⟩⟩
  · exact exec_ok (beq_iff_eq.mpr hp) ((inputOk_squeeze_iff s.cfg dom len payload).mpr ⟨hmax, hpl⟩)
  · exact exec_errPhase ((accepts_eq_false_iff .squeeze s.phase).mpr (.inl ⟨.inr rfl, hp⟩))
  · refine exec_errInput (beq_iff_eq.mpr hp) ?_
    rw [← Bool.not_eq_true, inputOk_squeeze_iff, not_and_or, not_le]
    exact hbad.symm
  · exact decode_of_legal_header (o := .squeeze) n0 n1 n2 n3 payload hr (.inl rfl)
  · exact step_of_illegal_header (o := .squeeze) n0 n1 n2 n3 payload (fun hl => h hl.1) rest s

end Sys2Proof.Machine
end

section
/-! SUPPORT. The AEAD session's commands: one message per session, the outcomes of AEAD_INIT, ENCRYPT and
DECRYPT, and the response a host may trust (R85 to R91, R101, R112). -/

namespace Sys2Proof.Machine

/-! ### One message per session -/

/-- An accepted ENCRYPT or DECRYPT ends the session (R91). -/
theorem exec_message {i : Instr} {s : State} (ho : i.opcode = .encrypt ∨ i.opcode = .decrypt)
    (hp : s.phase = .aeadInit) (hi : inputOk s.cfg i = true) :
    ∃ t, exec i s = .next t ∧ t.phase = .aeadFinal := by
  have ha : accepts i.opcode s.phase = true := by
    rcases ho with e | e <;> rw [e] <;> exact beq_iff_eq.mpr hp
  refine ⟨_, exec_ok ha hi, (effectOf_phase ha).trans ?_⟩
  rcases ho with e | e <;> rw [e] <;> rfl

/-- No AEAD_INIT packet stands among the inputs. -/
def NoAeadInit (inputs : List Input) : Prop :=
  ∀ p, Input.packet p ∈ inputs → ∀ len payload, decode p ≠ .ok (.aeadInit len payload)

theorem NoAeadInit.tail {inputs : List Input} (h : NoAeadInit inputs) : NoAeadInit inputs.tail :=
  fun p hp => h p (List.mem_of_mem_tail hp)

/-- A step that takes no AEAD_INIT packet does not go to AEAD_INIT: of the writes of PHASE, that
command's alone leaves it (R17). -/
theorem step_phase_ne_aeadInit {s t : State} (hstep : step s = .next t) (hp : s.phase ≠ .aeadInit)
    (hno : NoAeadInit s.inbox) : t.phase ≠ .aeadInit := by
  rcases phaseTransitions s t hstep with h | ⟨h, -⟩ | ⟨p, rest, i, hin, hd, h⟩
  · rwa [h]
  · simp [h]
  · rcases h with ⟨-, h⟩ | ⟨hi, -⟩ | ⟨-, h, -⟩
    · simp [h]
    · cases i with
      | aeadInit len payload => exact absurd hd (hno p (by simp [hin]) len payload)
      | dupInit | absorb | squeeze | encrypt | decrypt => cases hi
    · exact absurd h hp

/-- No run without an AEAD_INIT packet goes to AEAD_INIT. -/
theorem run_phase_ne_aeadInit (k : Nat) {s : State} (hp : s.phase ≠ .aeadInit)
    (hno : NoAeadInit s.inbox) :
    ∃ t, Host.Core.run Sys2Proof.core k s = .next t ∧ t.phase ≠ .aeadInit := by
  induction k generalizing s with
  | zero => exact ⟨s, run_zero s, hp⟩
  | succ k ih =>
    obtain ⟨u, hu, -⟩ := exists_step_kind s
    obtain ⟨t, ht, hpt⟩ :=
      ih (step_phase_ne_aeadInit hu hp hno) (step_inbox hu ▸ hno.tail)
    exact ⟨t, (run_succ hu).trans ht, hpt⟩

/-- ENCRYPT and DECRYPT outside AEAD_INIT (R98). -/
theorem exec_message_errPhase {i : Instr} {s : State}
    (ho : i.opcode = .encrypt ∨ i.opcode = .decrypt) (hp : s.phase ≠ .aeadInit) :
    exec i s = errorOutcome .errPhase s :=
  exec_errPhase ((accepts_eq_false_iff _ _).mpr (.inr ⟨ho, hp⟩))

/-- Settles O56: "PHASE is not AEAD_INIT" holds along every run that takes no AEAD_INIT packet. -/
theorem oneMessagePerSession : Obligations.OneMessagePerSession := by
  refine ⟨fun i s => exec_message, fun s k hp hno => ?_⟩
  obtain ⟨t, hrun, hpt⟩ := run_phase_ne_aeadInit k hp hno
  exact ⟨t, hrun, hpt, fun i ho => exec_message_errPhase ho hpt⟩

/-! ### The length test and the header of the three commands -/

section
variable (cfg : Config) (len : Word) (payload : List Byte)

theorem inputOk_aeadInit_iff :
    inputOk cfg (.aeadInit len payload) = true ↔
      32 ≤ len.toNat ∧ payload.length = len.toNat ∧ len.toNat ≤ cfg.maxLen := by
  rw [inputOk_eq_true_iff, Instr.wellFormed, Bool.and_eq_true, decide_eq_true_eq, beq_iff_eq, and_comm,
    and_assoc]
  rfl

theorem inputOk_encrypt_iff :
    inputOk cfg (.encrypt len payload) = true ↔
      payload.length = len.toNat ∧ len.toNat ≤ cfg.maxLen := by
  rw [inputOk_eq_true_iff, Instr.wellFormed, beq_iff_eq, and_comm]
  rfl

theorem inputOk_decrypt_iff :
    inputOk cfg (.decrypt len payload) = true ↔
      16 ≤ len.toNat ∧ payload.length = len.toNat ∧ len.toNat ≤ cfg.maxLen := by
  rw [inputOk_eq_true_iff, Instr.wellFormed, Bool.and_eq_true, decide_eq_true_eq, beq_iff_eq, and_comm,
    and_assoc]
  rfl

end

/-- The header of a command with no DOM field: it is a command when DOM and RSV are zero, and ends with
ERR_ILLEGAL otherwise (R42, R48). -/
theorem header_outcomes {o : Opcode} (ho : takesDom o = false) (s : State) (payload : List Byte)
    (dom r2 r3 n0 n1 n2 n3 : Byte) :
    (dom = 0 ∧ r2 = 0 ∧ r3 = 0 →
      decode (opcodeByte o :: dom :: r2 :: r3 :: n0 :: n1 :: n2 :: n3 :: payload) =
        .ok (buildInstr o dom (le32 n0 n1 n2 n3) payload)) ∧
    (¬ (dom = 0 ∧ r2 = 0 ∧ r3 = 0) → ∀ rest : List Input,
      step (setInbox
          (.packet (opcodeByte o :: dom :: r2 :: r3 :: n0 :: n1 :: n2 :: n3 :: payload) :: rest) s) =
        errorOutcome .errIllegal (setInbox rest s)) := by
  refine ⟨fun ⟨hdom, hr⟩ => decode_of_legal_header n0 n1 n2 n3 payload hr (.inr hdom),
    fun h rest => step_of_illegal_header n0 n1 n2 n3 payload (fun ⟨hr, hdom⟩ => h ⟨?_, hr⟩) rest s⟩
  exact hdom.resolve_left (Bool.not_eq_true _ ▸ ho)

/-! ### The outcomes of the three commands -/

/-- Settles O21: AEAD_INIT is accepted in every phase, so its lengths alone decide. -/
theorem aeadInitConstructs : Obligations.AeadInitConstructs := by
  intro s len payload
  have hinput := inputOk_aeadInit_iff s.cfg len payload
  refine ⟨fun hmin hlen hmax => exec_ok rfl (hinput.mpr ⟨hmin, hlen, hmax⟩),
    fun hbad => exec_errInput rfl ?_, header_outcomes (o := .aeadInit) rfl s payload⟩
  rwa [← Bool.not_eq_true, hinput, not_and_or, not_and_or, not_le, not_le]

/-- Settles O23: the phase decides first, then the length. -/
theorem encryptCommandEncrypts : Obligations.EncryptCommandEncrypts := by
  intro s len pt
  have hinput := inputOk_encrypt_iff s.cfg len pt
  refine ⟨fun hp hlen hmax => exec_ok (beq_iff_eq.mpr hp) (hinput.mpr ⟨hlen, hmax⟩),
    exec_message_errPhase (.inl rfl), fun hp hbad => exec_errInput (beq_iff_eq.mpr hp) ?_,
    header_outcomes (o := .encrypt) rfl s pt⟩
  rwa [← Bool.not_eq_true, hinput, not_and_or, not_le]

/-- Settles O25: the phase decides first, then the lengths; the verdict decides nothing. -/
theorem decryptCommandDecrypts : Obligations.DecryptCommandDecrypts := by
  intro s len payload
  have hinput := inputOk_decrypt_iff s.cfg len payload
  refine ⟨fun hp hmin hlen hmax => exec_ok (beq_iff_eq.mpr hp) (hinput.mpr ⟨hmin, hlen, hmax⟩),
    exec_message_errPhase (.inr rfl), fun hp hbad => exec_errInput (beq_iff_eq.mpr hp) ?_,
    header_outcomes (o := .decrypt) rfl s payload⟩
  rwa [← Bool.not_eq_true, hinput, not_and_or, not_and_or, not_le, not_le]

/-! ### The response a host may trust -/

/-- A response is trusted when it says OK, AEAD_FINAL and V = 1 (R112). -/
theorem trusted_responsePacket_iff (st : Status) (p : Phase) (v : Bool) (pl : List Byte) :
    trusted (responsePacket st p v pl) = true ↔ st = .ok ∧ p = .aeadFinal ∧ v = true := by
  have hst : statusByte st = 0 ↔ st = .ok := by cases st <;> decide
  have hp : phaseByte p = 5 ↔ p = .aeadFinal := by cases p <;> decide
  have hv : vByte v = 1 ↔ v = true := by cases v <;> decide
  simp only [trusted, respStatus_responsePacket, respPhase_responsePacket, respV_responsePacket,
    Bool.and_eq_true, beq_iff_eq, hst, hp, hv, and_assoc]

/-- From a state that meets the invariant, an accepted command leaves AEAD_FINAL with V = 1 only when it
is a DECRYPT whose computed tag is the supplied one: ENCRYPT finds V = 0 and leaves it (R19, R90). -/
theorem decrypt_of_effectOf_v {i : Instr} {s : State} (hs : EngineInv s)
    (ha : accepts i.opcode s.phase = true) (hp : (effectOf i s).1.phase = .aeadFinal)
    (hv : (effectOf i s).1.v = true) :
    ∃ len payload, i = .decrypt len payload ∧ s.phase = .aeadInit ∧
      rateRead (effectOf i s).1.sponge 16 = payload.take 16 := by
  obtain ⟨-, -, hfinal, -⟩ := hs
  rw [effectOf_phase ha] at hp
  cases i with
  | dupInit | absorb | squeeze | aeadInit => cases hp
  | encrypt len pt =>
    have hinit : s.phase = .aeadInit := beq_iff_eq.mp ha
    exact absurd (hinit.symm.trans (hfinal hv)) nofun
  | decrypt len payload =>
    exact ⟨len, payload, rfl, beq_iff_eq.mp ha, (effectOf_decrypt_v_iff len payload s).mp hv⟩

/-- Settles O51: a step that sends an OK response has accepted a command. -/
theorem trustedResponseHasAMatchingTag : Obligations.TrustedResponseHasAMatchingTag := by
  intro s t r hs hstep hout htrust
  cases step_kind hstep with
  | waiting hin => simp at hout
  | resetting hin hx => simp at hout
  | refusing hin hst =>
    rw [respondError_outbox, setInbox_outbox, List.append_cancel_left_eq, List.singleton_inj] at hout
    obtain ⟨hok, -, -⟩ := (trusted_responsePacket_iff ..).mp (hout ▸ htrust)
    exact absurd hok hst
  | @accepting p rest i hin hd ha hi =>
    rw [respond_outbox, effectOf_outbox, setInbox_outbox, List.append_cancel_left_eq,
      List.singleton_inj] at hout
    obtain ⟨-, hphase, hv⟩ := (trusted_responsePacket_iff ..).mp (hout ▸ htrust)
    obtain ⟨len, payload, rfl, hp, htag⟩ :=
      decrypt_of_effectOf_v (s := setInbox rest s) hs ha hphase hv
    exact ⟨p, rest, len, payload, hin, hd, hp, htag, hout ▸ respPayload_responsePacket ..⟩

end Sys2Proof.Machine
end

section
/-! SUPPORT. The AEAD functions chunk by chunk, the round trip of a message on the functions and on two
engines, and padded continuations (R85, R87, R89, R93, R94). -/

namespace Sys2Proof.Machine

/-! ### Session construction -/

/-- A whole key and a whole nonce are one full block each (R85). -/
theorem absorb_key_nonce (cfg : Config) (s : Sponge) {key nonce : List Byte} (dom : Byte)
    (hk : key.length = 16) (hn : nonce.length = 16) :
    absorb cfg s (key ++ nonce) dom =
      permute cfg (domXor dom (rateXor nonce (permute cfg (domXor dom (rateXor key s))))) := by
  have hne : nonce ≠ [] := List.length_pos_iff.mp (by omega)
  rw [absorb_append_full cfg s dom hk hne, absorb_full cfg _ dom hn, absorbBlock,
    injectBlock_of_full dom s hk]

/-- Settles O20: the two blocks, the third absorb, and the chain of masks. -/
theorem sessionConstruction : Obligations.SessionConstruction := by
  intro cfg key nonce ad hk hn
  refine ⟨absorb_key_nonce cfg zeroSponge domAbsorb hk hn, aeadConstruct_nil cfg key nonce,
    aeadConstruct_of_ne_nil cfg key nonce, constructMasks key nonce ad, constructMasks_length ad ?_,
    aeadConstruct_eq_rateChain cfg key nonce ad⟩
  rw [List.length_append, hk, hn]

/-! ### Encryption, chunk by chunk -/

/-- The ciphertext of the first chunk of a message: encryption XORs a chunk with the keystream that
decryption XORs it with (R87, R89). -/
abbrev cipherChunk (s : Sponge) (pt : List Byte) : List Byte := recoveredChunk s pt

theorem cipherChunk_length (s : Sponge) (pt : List Byte) :
    (cipherChunk s pt).length = min 16 pt.length := by
  rw [recoveredChunk_length, List.length_take]

/-- The loop of aead_encrypt, by the first chunk and the rest of the message (R87). -/
theorem encryptChunks_blocks (cfg : Config) (s : Sponge) {pt : List Byte} (h : pt ≠ []) :
    encryptChunks cfg (blocks pt) s =
      ((encryptChunks cfg (blocks (pt.drop 16)) (absorb cfg s (pt.take 16) domAbsorb)).1,
        cipherChunk s pt ++
          (encryptChunks cfg (blocks (pt.drop 16)) (absorb cfg s (pt.take 16) domAbsorb)).2) := by
  rw [blocks_of_ne_nil h, encryptChunks_cons cfg _ _ s (by simp)]
  rfl

theorem encryptChunks_blocks_length (cfg : Config) (s : Sponge) (pt : List Byte) :
    (encryptChunks cfg (blocks pt) s).2.length = pt.length := by
  rw [encryptChunks_length cfg _ s (blocks_length_le pt), blocks_flatten]

theorem aeadEncrypt_nil (cfg : Config) (s : Sponge) :
    aeadEncrypt cfg s [] = (s, [], rateRead s 16) := by
  rw [aeadEncrypt_eq, blocks_nil, encryptChunks_nil, rateRead_sixteen]

/-- aead_encrypt, by the first chunk and the rest of the message (R87). -/
theorem aeadEncrypt_of_ne_nil (cfg : Config) (s : Sponge) {pt : List Byte} (h : pt ≠ []) :
    aeadEncrypt cfg s pt =
      ((aeadEncrypt cfg (absorb cfg s (pt.take 16) domAbsorb) (pt.drop 16)).1,
        cipherChunk s pt ++
          (aeadEncrypt cfg (absorb cfg s (pt.take 16) domAbsorb) (pt.drop 16)).2.1,
        (aeadEncrypt cfg (absorb cfg s (pt.take 16) domAbsorb) (pt.drop 16)).2.2) := by
  simp only [aeadEncrypt_eq, encryptChunks_blocks cfg s h]

theorem aeadEncrypt_length (cfg : Config) (s : Sponge) (pt : List Byte) :
    (aeadEncrypt cfg s pt).2.1.length = pt.length := by
  rw [aeadEncrypt_eq]
  exact encryptChunks_blocks_length cfg s pt

/-- The tag is the rate that aead_encrypt leaves (R87). -/
theorem aeadEncrypt_tag (cfg : Config) (s : Sponge) (pt : List Byte) :
    (aeadEncrypt cfg s pt).2.2 = rateRead (aeadEncrypt cfg s pt).1 16 := by
  rw [aeadEncrypt_eq, rateRead_sixteen]

theorem aeadEncrypt_tag_length (cfg : Config) (s : Sponge) (pt : List Byte) :
    (aeadEncrypt cfg s pt).2.2.length = 16 := by
  rw [aeadEncrypt_tag, rateRead_length, Nat.min_self]

/-- Injecting a full chunk leaves its ciphertext in the rate, but for the domain byte (R87 (c)). -/
theorem rateBytes_inject_full (dom : Byte) (s : Sponge) {pt : List Byte} (h : pt.length = 16) {j : Nat}
    (hj : j < 16) :
    (rateBytes (domXor dom (rateXor pt s))).getD j 0 =
      (xorBytes pt (rateRead s 16)).getD j 0 ^^^ (if j = 15 then dom else 0x00) := by
  have hxor : (xorBytes pt (rateRead s 16)).getD j 0 = pt.getD j 0 ^^^ (rateBytes s).getD j 0 := by
    rw [rateRead_sixteen, List.getD_eq_getElem?_getD, xorBytes_getElem? (h ▸ hj) hj, Option.getD_some]
  rw [domXor, rateXor, rateBytes_xorRate _ _ j hj, rateBytes_xorRate _ _ j hj,
    planeBytes_domMask dom j hj, planeBytes_blockPlane pt j hj, hxor, BitVec.xor_comm (pt.getD j 0)]

/-- Settles O22. -/
theorem encryptChunkByChunk : Obligations.EncryptChunkByChunk := fun cfg s pt =>
  ⟨aeadEncrypt_nil cfg s, aeadEncrypt_of_ne_nil cfg s, aeadEncrypt_length cfg s pt,
    aeadEncrypt_tag cfg s pt,
    ⟨_, by rw [List.length_map, blocks_length], aeadEncrypt_eq_rateChain cfg s pt⟩,
    fun h _ hj => rateBytes_inject_full domAbsorb s h hj⟩

/-! ### Decryption, chunk by chunk -/

theorem aeadDecrypt_nil (cfg : Config) (s : Sponge) (tag : List Byte) :
    aeadDecrypt cfg s [] tag = (s, [], decide (rateRead s 16 = tag)) := by
  rw [aeadDecrypt_eq, blocks_nil, decryptChunks_nil, rateRead_sixteen, eq16, beq_eq_decide]

/-- aead_decrypt, by the first chunk and the rest of the ciphertext (R89). -/
theorem aeadDecrypt_of_ne_nil (cfg : Config) (s : Sponge) {ct : List Byte} (tag : List Byte)
    (h : ct ≠ []) :
    aeadDecrypt cfg s ct tag =
      ((aeadDecrypt cfg (recoveredState cfg s ct) (ct.drop 16) tag).1,
        recoveredChunk s ct ++ (aeadDecrypt cfg (recoveredState cfg s ct) (ct.drop 16) tag).2.1,
        (aeadDecrypt cfg (recoveredState cfg s ct) (ct.drop 16) tag).2.2) := by
  simp only [aeadDecrypt_eq, decryptChunks_blocks cfg s h]

theorem aeadDecrypt_length (cfg : Config) (s : Sponge) (ct tag : List Byte) :
    (aeadDecrypt cfg s ct tag).2.1.length = ct.length := by
  rw [aeadDecrypt_eq, decryptChunks_length cfg _ s (blocks_length_le ct), blocks_flatten]

/-- The state and the recovered plaintext do not depend on the tag (R89). -/
theorem aeadDecrypt_congr_tag (cfg : Config) (s : Sponge) (ct tag tag' : List Byte) :
    (aeadDecrypt cfg s ct tag').1 = (aeadDecrypt cfg s ct tag).1 ∧
      (aeadDecrypt cfg s ct tag').2.1 = (aeadDecrypt cfg s ct tag).2.1 := by
  simp only [aeadDecrypt_eq, and_self]

/-- The verdict compares the rate that aead_decrypt leaves with the tag (R89). -/
theorem aeadDecrypt_verdict_iff (cfg : Config) (s : Sponge) (ct tag : List Byte) :
    (aeadDecrypt cfg s ct tag).2.2 = true ↔ rateRead (aeadDecrypt cfg s ct tag).1 16 = tag := by
  rw [aeadDecrypt_eq, eq16_iff, rateRead_sixteen]

/-- Settles O24. -/
theorem decryptChunkByChunk : Obligations.DecryptChunkByChunk := fun cfg s ct tag =>
  ⟨aeadDecrypt_nil cfg s tag, aeadDecrypt_of_ne_nil cfg s tag, aeadDecrypt_length cfg s ct tag,
    ⟨_, by rw [decryptMasks_length, blocks_length], aeadDecrypt_eq_rateChain cfg s ct tag⟩,
    aeadDecrypt_congr_tag cfg s ct tag, aeadDecrypt_verdict_iff cfg s ct tag⟩

/-! ### The round trip -/

/-- The ciphertext is cut into chunks where the plaintext is (R33, R87). -/
theorem blocks_encryptChunks (cfg : Config) (s : Sponge) {pt : List Byte} (h : pt ≠ []) :
    blocks (encryptChunks cfg (blocks pt) s).2 = cipherChunk s pt ::
      blocks (encryptChunks cfg (blocks (pt.drop 16)) (absorb cfg s (pt.take 16) domAbsorb)).2 := by
  have hlen := cipherChunk_length s pt
  have hpos : 0 < pt.length := List.length_pos_iff.mpr h
  rw [encryptChunks_blocks cfg s h]
  by_cases hshort : pt.length ≤ 16
  · have hne : cipherChunk s pt ≠ [] := List.length_pos_iff.mp (by omega)
    have hle : (cipherChunk s pt).length ≤ 16 := by omega
    rw [List.drop_of_length_le hshort, blocks_nil, encryptChunks_nil, blocks_nil, List.append_nil]
    exact blocks_of_short hne hle
  · exact blocks_append_full (by omega)

/-- Decrypting the ciphertext absorbs the plaintext chunks and recovers them (R93). -/
theorem decryptChunks_encryptChunks (cfg : Config) (pt : List Byte) : ∀ s : Sponge,
    decryptChunks cfg (blocks (encryptChunks cfg (blocks pt) s).2) s =
      ((encryptChunks cfg (blocks pt) s).1, pt) := by
  induction pt using block_induction with
  | nil => exact fun s => rfl
  | step pt h ih =>
    intro s
    have hchunk : (cipherChunk s pt).length ≤ 16 := by simp [cipherChunk_length]
    have hback : xorBytes (cipherChunk s pt) (rateRead s (cipherChunk s pt).length) = pt.take 16 := by
      rw [recoveredChunk_length]
      exact xorBytes_cancel _ _ (by simp)
    rw [blocks_encryptChunks cfg s h, decryptChunks_cons cfg _ _ s hchunk, hback, ih,
      encryptChunks_blocks cfg s h, List.take_append_drop]

/-- Decrypting an encrypted message with any tag: the state and the plaintext are right, and the verdict
compares the two tags (R93, R94). -/
theorem aeadDecrypt_aeadEncrypt (cfg : Config) (s : Sponge) (pt tag : List Byte) :
    aeadDecrypt cfg s (aeadEncrypt cfg s pt).2.1 tag =
      ((aeadEncrypt cfg s pt).1, pt, eq16 (aeadEncrypt cfg s pt).2.2 tag) := by
  simp only [aeadDecrypt_eq, aeadEncrypt_eq, decryptChunks_encryptChunks]

/-- Settles O52: the tag compared is the tag computed. -/
theorem decryptInvertsEncrypt : Obligations.DecryptInvertsEncrypt := fun cfg s pt =>
  (aeadDecrypt_aeadEncrypt cfg s pt _).trans (by rw [(eq16_iff _ _).mpr rfl])

/-- Settles O54: the tag compared is another one. -/
theorem changedTagNeverVerifies : Obligations.ChangedTagNeverVerifies := fun cfg s pt tag' h => by
  have hverdict : eq16 (aeadEncrypt cfg s pt).2.2 tag' = false := by
    rw [← Bool.not_eq_true, eq16_iff]
    exact h.symm
  rw [aeadDecrypt_aeadEncrypt, hverdict]

/-! ### The round trip on two engines -/

/-- ENCRYPT in AEAD_INIT (R88). -/
theorem run_encryptPacket {s : State} (hp : s.phase = .aeadInit) {pt : List Byte}
    (hlen : pt.length < 2 ^ 32) (hmax : pt.length ≤ s.cfg.maxLen) (rest : List Input) (k : Nat) :
    Host.Core.run Sys2Proof.core (k + 1) (setInbox (.packet (encryptPacket pt) :: rest) s) =
      Host.Core.run Sys2Proof.core k
        (setInbox rest (respond .ok (effectEncrypt pt s).2 (effectEncrypt pt s).1)) := by
  refine run_accepted (i := .encrypt _ pt) (beq_iff_eq.mpr hp) ?_ rest k
  rw [inputOk_encrypt_iff, toNat_ofNat_len hlen]
  exact ⟨rfl, hmax⟩

/-- DECRYPT in AEAD_INIT, with a whole tag (R90). -/
theorem run_decryptPacket {s : State} (hp : s.phase = .aeadInit) {tag ct : List Byte}
    (htag : tag.length = 16) (hlen : 16 + ct.length < 2 ^ 32) (hmax : 16 + ct.length ≤ s.cfg.maxLen)
    (rest : List Input) (k : Nat) :
    Host.Core.run Sys2Proof.core (k + 1) (setInbox (.packet (decryptPacket tag ct) :: rest) s) =
      Host.Core.run Sys2Proof.core k
        (setInbox rest (respond .ok (effectDecrypt tag ct s).2 (effectDecrypt tag ct s).1)) := by
  have hinput :
      inputOk s.cfg (.decrypt (BitVec.ofNat 32 (16 + ct.length)) (tag ++ ct)) = true := by
    rw [inputOk_decrypt_iff, toNat_ofNat_len hlen, List.length_append, htag]
    exact ⟨Nat.le_add_right 16 _, rfl, hmax⟩
  have htagOf : tagOf (tag ++ ct) = tag := List.take_left' htag
  have hctOf : ctOf (tag ++ ct) = ct := List.drop_left' htag
  rw [decryptPacket, run_accepted (i := .decrypt _ (tag ++ ct)) (beq_iff_eq.mpr hp) hinput, effectOf,
    htagOf, hctOf]

section
variable {s : State} {key nonce ad : List Byte} (hk : key.length = 16) (hn : nonce.length = 16)
  (hadlen : 32 + ad.length < 2 ^ 32) (hadmax : 32 + ad.length ≤ s.cfg.maxLen)
include hk hn hadlen hadmax

/-- An engine constructs a session and encrypts a message in it (R86, R88). -/
theorem run_construct_encrypt {pt : List Byte} (hlen : pt.length < 2 ^ 32)
    (hmax : pt.length ≤ s.cfg.maxLen) :
    ∃ t, Host.Core.run Sys2Proof.core 2
        (setInbox [.packet (aeadInitPacket key nonce ad), .packet (encryptPacket pt)] s) = .next t ∧
      t.outbox = s.outbox ++ [responsePacket .ok .aeadInit false [],
        responsePacket .ok .aeadFinal false
          ((aeadEncrypt s.cfg (aeadConstruct s.cfg key nonce ad) pt).2.1 ++
            (aeadEncrypt s.cfg (aeadConstruct s.cfg key nonce ad) pt).2.2)] ∧
      t.sponge = (aeadEncrypt s.cfg (aeadConstruct s.cfg key nonce ad) pt).1 := by
  have hmessage := run_encryptPacket (s := respond .ok [] (effectAeadInit key nonce ad s).1) rfl hlen
    hmax [] 0
  refine ⟨_, (run_aeadInitPacket hk hn ad hadlen hadmax _ 1).trans (hmessage.trans (run_zero _)), ?_,
    rfl⟩
  simp

/-- An engine constructs a session and decrypts a message in it (R86, R90). -/
theorem run_construct_decrypt {tag ct : List Byte} (htag : tag.length = 16)
    (hlen : 16 + ct.length < 2 ^ 32) (hmax : 16 + ct.length ≤ s.cfg.maxLen) :
    ∃ t, Host.Core.run Sys2Proof.core 2
        (setInbox [.packet (aeadInitPacket key nonce ad), .packet (decryptPacket tag ct)] s) =
          .next t ∧
      t.outbox = s.outbox ++ [responsePacket .ok .aeadInit false [],
        responsePacket .ok .aeadFinal
          (aeadDecrypt s.cfg (aeadConstruct s.cfg key nonce ad) ct tag).2.2
          (aeadDecrypt s.cfg (aeadConstruct s.cfg key nonce ad) ct tag).2.1] ∧
      t.sponge = (aeadDecrypt s.cfg (aeadConstruct s.cfg key nonce ad) ct tag).1 := by
  have hmessage := run_decryptPacket (s := respond .ok [] (effectAeadInit key nonce ad s).1) rfl htag
    hlen hmax [] 0
  refine ⟨_, (run_aeadInitPacket hk hn ad hadlen hadmax _ 1).trans (hmessage.trans (run_zero _)), ?_,
    rfl⟩
  simp

end

/-- Settles O53: both engines construct the same session, and there DECRYPT is given what ENCRYPT
returned. -/
theorem encryptedMessageVerifies : Obligations.EncryptedMessageVerifies := by
  intro s s' key nonce ad pt hk hn hcfg hadlen hadmax hptlen hptmax
  have hct := aeadEncrypt_length s.cfg (aeadConstruct s.cfg key nonce ad) pt
  have htag := aeadEncrypt_tag_length s.cfg (aeadConstruct s.cfg key nonce ad) pt
  obtain ⟨t, hrun, hout, hsponge⟩ := run_construct_encrypt hk hn hadlen hadmax (pt := pt) (by omega)
    (by omega)
  obtain ⟨t', hrun', hout', hsponge'⟩ := run_construct_decrypt (s := s') hk hn hadlen
    (hcfg ▸ hadmax) htag (hct ▸ hptlen) (hct ▸ hcfg ▸ hptmax)
  rw [hcfg, decryptInvertsEncrypt] at hout' hsponge'
  exact ⟨_, _, t, t', hct, htag, hrun, hout, hrun', hout', hsponge'.trans hsponge.symm⟩

/-! ### Padded continuations -/

theorem ne_nil_of_length_mod {x : List Byte} (h : x.length % 16 ≠ 0) : x ≠ [] := by
  rintro rfl
  exact h rfl

theorem aeadConstruct_padded (cfg : Config) (key nonce : List Byte) {ad : List Byte}
    (h : ad.length % 16 ≠ 0) :
    aeadConstruct cfg key nonce ad = aeadConstruct cfg key nonce (padded ad) := by
  rw [aeadConstruct_of_ne_nil cfg key nonce (ne_nil_of_length_mod h),
    aeadConstruct_of_ne_nil cfg key nonce (padded_ne_nil ad), absorb_padded cfg domAbsorb ad h]

/-- The ciphertext of a short chunk is the front of that of its padded continuation (R94 (c)). -/
theorem xorBytes_padded_take (x : List Byte) (s : Sponge) (h : x.length ≤ 16) :
    (xorBytes (padded x) (rateRead s 16)).take x.length = xorBytes x (rateRead s x.length) := by
  rw [xorBytes, List.take_zipWith, padded, List.take_left, rateRead_take s h, xorBytes]

/-- A message and its padded continuation: they lead to the same state, and the ciphertext of the first
is the front of the other's (R94 (c)). -/
theorem encryptChunks_padded (cfg : Config) (pt : List Byte) (h : pt.length % 16 ≠ 0) : ∀ s : Sponge,
    encryptChunks cfg (blocks pt) s =
      ((encryptChunks cfg (blocks (padded pt)) s).1,
        (encryptChunks cfg (blocks (padded pt)) s).2.take pt.length) := by
  induction pt using block_induction with
  | nil => exact absurd rfl h
  | step pt hpt ih =>
    intro s
    by_cases hlen : pt.length < 16
    · have hpad := padded_length_of_short hlen
      rw [blocks_of_short hpt hlen.le, blocks_of_short (padded_ne_nil pt) hpad.le,
        encryptChunks_cons cfg _ _ s hlen.le, encryptChunks_cons cfg _ _ s hpad.le, hpad,
        absorb_padded cfg domAbsorb pt h]
      simp [xorBytes_padded_take pt s hlen.le]
    · have htake : (pt.take 16).length = 16 := List.length_take_of_le (by omega)
      have hrest : (pt.drop 16).length % 16 ≠ 0 := by
        rw [List.length_drop]
        omega
      have hpad : padded pt = pt.take 16 ++ padded (pt.drop 16) := by
        rw [← padded_append_full htake, List.take_append_drop]
      have hct : (xorBytes (pt.take 16) (rateRead s 16)).length = 16 := by simp [htake]
      have hcut (rest : List Byte) :
          (xorBytes (pt.take 16) (rateRead s 16) ++ rest).take pt.length =
            xorBytes (pt.take 16) (rateRead s 16) ++ rest.take (pt.drop 16).length := by
        rw [List.take_append, hct, List.take_of_length_le (by omega), List.length_drop]
      rw [hpad, blocks_append_full htake, blocks_of_ne_nil hpt, encryptChunks_cons cfg _ _ s htake.le,
        encryptChunks_cons cfg _ _ s htake.le, ih hrest, htake]
      simp only [hcut]

theorem aeadEncrypt_padded (cfg : Config) (s : Sponge) {pt : List Byte} (h : pt.length % 16 ≠ 0) :
    aeadEncrypt cfg s pt =
      ((aeadEncrypt cfg s (padded pt)).1, (aeadEncrypt cfg s (padded pt)).2.1.take pt.length,
        (aeadEncrypt cfg s (padded pt)).2.2) := by
  simp only [aeadEncrypt_eq, encryptChunks_padded cfg pt h s]

/-- Settles O55: the cut-back ciphertext is the ciphertext of the message itself, which verifies. -/
theorem paddedContinuationsShareATag : Obligations.PaddedContinuationsShareATag := by
  refine ⟨fun cfg key nonce ad => aeadConstruct_padded cfg key nonce, fun cfg s pt h => ?_⟩
  have hround := decryptInvertsEncrypt cfg s pt
  rw [aeadEncrypt_padded cfg s h] at hround ⊢
  exact ⟨rfl, rfl, rfl, hround⟩

end Sys2Proof.Machine
end

section
/-! SUPPORT. The status a packet ends with and what each error answers (R96 to R100), the commands two
engines with the same rate answer alike (R106), and waiting (R111). -/

namespace Sys2Proof.Machine

/-! ### The status of a packet -/

theorem statusOf_eq_errIllegal_iff (p : Packet) (s : State) :
    statusOf p s = .errIllegal ↔ ∀ i, decode p ≠ .ok i := by
  unfold statusOf
  cases decode p with
  | error e => simp
  | ok i => cases ha : accepts i.opcode s.phase <;> cases hi : inputOk s.cfg i <;> simp [ha, hi]

theorem statusOf_eq_errPhase {p : Packet} {s : State} {i : Instr} (hd : decode p = .ok i)
    (ha : accepts i.opcode s.phase = false) : statusOf p s = .errPhase := by
  simp [statusOf, hd, ha]

theorem statusOf_eq_errInput_iff {p : Packet} (s : State) {i : Instr} (hd : decode p = .ok i) :
    statusOf p s = .errInput ↔ accepts i.opcode s.phase = true ∧ inputOk s.cfg i = false := by
  cases ha : accepts i.opcode s.phase <;> cases hi : inputOk s.cfg i <;>
    simp [statusOf, hd, ha, hi]

/-- A packet is answered with one response of its status; and an error is all that happens (R96). -/
theorem afterPacket_eq_respond (p : Packet) (s : State) :
    ∃ t pl, afterPacket p s = respond (statusOf p s) pl t ∧ t.outbox = s.outbox ∧ t.inbox = s.inbox ∧
      (statusOf p s ≠ .ok → t = s ∧ pl = []) := by
  by_cases hst : statusOf p s = .ok
  · obtain ⟨i, hd, ha, hi⟩ := (statusOf_eq_ok_iff p s).mp hst
    rw [hst]
    exact ⟨_, _, afterPacket_of_accepted hd ha hi, effectOf_outbox i s, effectOf_inbox i s,
      (absurd rfl ·)⟩
  · exact ⟨s, [], afterPacket_of_refused hst, rfl, rfl, fun _ => ⟨rfl, rfl⟩⟩

/-- A packet ends with an error exactly when that error is its status. -/
theorem afterPacket_eq_respondError_iff (p : Packet) (s : State) {st : Status} (hst : st ≠ .ok) :
    afterPacket p s = respondError st s ↔ statusOf p s = st := by
  constructor
  · intro h
    obtain ⟨t, pl, e, ho, -⟩ := afterPacket_eq_respond p s
    exact status_eq_of_respond_eq ho (e.symm.trans h)
  · rintro rfl
    exact afterPacket_of_refused hst

/-- Settles O29: the status of the response is the status of the packet, and its errors come in the
order in which `statusOf` tests for them. -/
theorem errorsAnswerAndChangeNothing : Obligations.ErrorsAnswerAndChangeNothing := by
  intro s p rest hin
  obtain ⟨t, pl, e, ho, hi, herr⟩ := afterPacket_eq_respond p (setInbox rest s)
  have hstep : step s = .next (respond (statusOf p s) pl t) :=
    (step_of_cons hin).trans (congrArg Host.Outcome.next e)
  have hstatus {st : Status} (h : statusOf p s = st) :
      respStatus (responsePacket (statusOf p s) t.phase t.v pl) = statusByte st := by
    rw [h, respStatus_responsePacket]
  refine ⟨_, _, hstep, by rw [respond_outbox, ho]; rfl, hi,
    fun hd => hstatus ((statusOf_eq_errIllegal_iff p s).mpr hd),
    fun i hd ha => hstatus (statusOf_eq_errPhase hd ha),
    fun i hd ha hi => hstatus ((statusOf_eq_errInput_iff s hd).mpr ⟨ha, hi⟩),
    fun i hd ha hi => hstatus ((statusOf_eq_ok_iff p s).mpr ⟨i, hd, ha, hi⟩), fun hne => ?_⟩
  obtain ⟨rfl, rfl⟩ := herr fun h => hne (hstatus h)
  exact ⟨rfl, rfl, by simp, rfl, rfl⟩

/-! ### ERR_INPUT -/

/-- A command does what its packet does. -/
theorem exec_eq_afterPacket_encode (i : Instr) (s : State) :
    exec i s = .next (afterPacket (encode i) s) := by
  rw [← runPacket_of_ok (decode_encode i) s, runPacket_eq]

theorem exec_eq_errInput_iff (i : Instr) (s : State) :
    exec i s = errorOutcome .errInput s ↔
      accepts i.opcode s.phase = true ∧ inputOk s.cfg i = false := by
  rw [exec_eq_afterPacket_encode, Host.Outcome.next.injEq,
    ← statusOf_eq_errInput_iff s (decode_encode i)]
  exact afterPacket_eq_respondError_iff (encode i) s nofun

/-- Settles O27: the lengths each command requires, and MAXLEN for every command. -/
theorem lengthTestRefuses : Obligations.LengthTestRefuses := by
  intro i s
  rw [exec_eq_errInput_iff, ← Bool.not_eq_true (inputOk s.cfg i), inputOk_eq_true_iff, not_and_or,
    not_le]
  refine and_congr_right' (or_congr_right ?_)
  cases i with
  | absorb dom len pl | squeeze dom len pl | encrypt len pl => simp [Instr.wellFormed]
  | dupInit len pl | aeadInit len pl | decrypt len pl => simp [Instr.wellFormed, imp_iff_not_or]

/-! ### ERR_ILLEGAL -/

theorem mem_opcodes (o : Opcode) : o ∈ opcodes := by cases o <;> decide

/-- The assigned values of OPC (R44). -/
theorem mem_opcodeBytes_iff (opc : Byte) :
    opc ∈ ([0x10, 0x11, 0x12, 0x20, 0x21, 0x22] : List Byte) ↔ ∃ o, opcodeByte o = opc := by
  have hlist : ([0x10, 0x11, 0x12, 0x20, 0x21, 0x22] : List Byte) = opcodes.map opcodeByte := rfl
  rw [hlist, List.mem_map]
  simp only [mem_opcodes, true_and]

/-- The values of OPC with a free DOM (R42). -/
theorem opcodeByte_mem_iff (o : Opcode) :
    opcodeByte o ∈ ([0x11, 0x12] : List Byte) ↔ takesDom o = true := by
  cases o <;> decide

/-- The packets that are commands, byte by byte of the header (R42, R48). -/
theorem exists_decode_iff (p : Packet) :
    (∃ i, decode p = .ok i) ↔
      8 ≤ p.length ∧ p.getD 0 0 ∈ ([0x10, 0x11, 0x12, 0x20, 0x21, 0x22] : List Byte) ∧
      p.getD 2 0 = 0 ∧ p.getD 3 0 = 0 ∧
      (p.getD 1 0 ≠ 0 → p.getD 0 0 ∈ ([0x11, 0x12] : List Byte)) := by
  constructor
  · rintro ⟨i, hd⟩
    have hlen := length_of_decode_eq_ok hd
    obtain ⟨opc, dom, r2, r3, n0, n1, n2, n3, pl, rfl⟩ := exists_header_of_length hlen
    obtain ⟨o, rfl, ⟨hr2, hr3⟩, hdom, -⟩ := (decode_header_eq_ok_iff ..).mp hd
    exact ⟨hlen, (mem_opcodeBytes_iff _).mpr ⟨o, rfl⟩, hr2, hr3,
      fun hne => (opcodeByte_mem_iff o).mpr (hdom.resolve_right hne)⟩
  · rintro ⟨hlen, hopc, hr2, hr3, hdom⟩
    obtain ⟨opc, dom, r2, r3, n0, n1, n2, n3, pl, rfl⟩ := exists_header_of_length hlen
    obtain ⟨o, rfl⟩ := (mem_opcodeBytes_iff opc).mp hopc
    have hlegal : takesDom o = true ∨ dom = 0 :=
      or_iff_not_imp_right.mpr fun hne => (opcodeByte_mem_iff o).mp (hdom hne)
    exact ⟨_, decode_of_legal_header n0 n1 n2 n3 pl ⟨hr2, hr3⟩ hlegal⟩

/-- Settles O28: a packet is refused as illegal when it decodes to no command. -/
theorem illegalPacketIsRefused : Obligations.IllegalPacketIsRefused := by
  intro s p rest hin
  have hrefused : step s = errorOutcome .errIllegal (setInbox rest s) ↔ ¬ ∃ i, decode p = .ok i := by
    rw [step_of_cons hin, Host.Outcome.next.injEq, not_exists,
      ← statusOf_eq_errIllegal_iff p (setInbox rest s)]
    exact afterPacket_eq_respondError_iff p (setInbox rest s) nofun
  refine hrefused.trans ?_
  rw [exists_decode_iff]
  simp only [not_and_or, not_le, Classical.not_imp, ne_eq]

/-! ### Waiting -/

/-- Settles O32. -/
theorem waitingHoldsTheState : Obligations.WaitingHoldsTheState := fun _ => step_of_nil

/-! ### Output of the rate alone -/

/-- Two states that agree on the rate, PHASE, V and the configuration: they may differ in the capacity,
in what is offered and in the responses sent. -/
structure SameRate (s s' : State) : Prop where
  rate : s'.sponge.a0 = s.sponge.a0
  phase : s'.phase = s.phase
  v : s'.v = s.v
  cfg : s'.cfg = s.cfg

/-- The response of an accepted command (R46). -/
def okResponse (i : Instr) (s : State) : Packet :=
  responsePacket .ok (effectOf i s).1.phase (effectOf i s).1.v (effectOf i s).2

/-- The response of an accepted ENCRYPT of an empty message is the tag (R87). -/
theorem okResponse_encrypt_nil (len : Word) (s : State) :
    okResponse (.encrypt len []) s = responsePacket .ok .aeadFinal s.v (rateRead s.sponge 16) := by
  simp [okResponse, effectOf, aeadEncrypt_nil]

/-- The response of an accepted DECRYPT of an empty message is the verdict (R89). -/
theorem okResponse_decrypt_short (len : Word) {payload : List Byte} (s : State)
    (h : payload.length ≤ 16) :
    okResponse (.decrypt len payload) s =
      responsePacket .ok .aeadFinal (decide (rateRead s.sponge 16 = tagOf payload)) [] := by
  have hct : ctOf payload = [] := List.drop_of_length_le h
  simp [okResponse, effectOf, hct, aeadDecrypt_nil]

/-- The first 16 bytes of a squeeze are the rate (R78). -/
theorem squeeze_take (cfg : Config) (s : Sponge) (len : Nat) (dom : Byte) :
    (squeeze cfg s len dom).2.take 16 = rateRead s len := by
  by_cases h : len ≤ 16
  · rw [squeeze_short cfg s dom h, List.take_of_length_le (by simp)]
  · have hle : 16 ≤ len := (Nat.lt_of_not_le h).le
    rw [squeeze_long cfg s dom (Nat.lt_of_not_le h), List.take_left' (by simp), rateRead, rateRead,
      List.take_of_length_le (by simp), List.take_of_length_le (by simpa using hle)]

/-- A response up to its 16th payload byte (R46). -/
theorem responsePacket_take (st : Status) (p : Phase) (v : Bool) (pl : List Byte) :
    (responsePacket st p v pl).take 24 =
      [statusByte st, phaseByte p, vByte v, 0x00] ++ wordBytes (headerQ1 pl) ++ pl.take 16 := rfl

/-- OLEN is a function of the payload's length, when it can hold it (R46). -/
theorem headerQ1_congr {pl pl' : List Byte} (h : pl.length < 2 ^ 32) (he : pl'.length = pl.length) :
    headerQ1 pl' = headerQ1 pl := by
  rw [headerQ1, headerQ1, he, if_pos h, if_pos h]

/-- A chunk in front of the rest of a message is its first 16 bytes, when it is as long as the message
or full. -/
theorem take_chunk_append {chunk rest data : List Byte} (hc : chunk.length = (data.take 16).length)
    (hr : rest.length = (data.drop 16).length) : (chunk ++ rest).take 16 = chunk := by
  rw [List.length_take] at hc
  rw [List.length_drop] at hr
  have hrest : rest.take (16 - chunk.length) = [] := by
    rw [← List.length_eq_zero_iff, List.length_take]
    omega
  rw [List.take_append, hrest, List.append_nil, List.take_of_length_le (by omega)]

/-- The first chunk of a ciphertext (R87). -/
theorem aeadEncrypt_take (cfg : Config) (s : Sponge) (pt : List Byte) :
    (aeadEncrypt cfg s pt).2.1.take 16 = cipherChunk s pt := by
  by_cases hpt : pt = []
  · rw [hpt, aeadEncrypt_nil]
    rfl
  · rw [aeadEncrypt_of_ne_nil cfg s hpt]
    exact take_chunk_append (recoveredChunk_length s pt) (aeadEncrypt_length ..)

/-- The first chunk of a recovered plaintext (R89). -/
theorem aeadDecrypt_take (cfg : Config) (s : Sponge) (ct tag : List Byte) :
    (aeadDecrypt cfg s ct tag).2.1.take 16 = recoveredChunk s ct := by
  by_cases hct : ct = []
  · rw [hct, aeadDecrypt_nil]
    rfl
  · rw [aeadDecrypt_of_ne_nil cfg s tag hct]
    exact take_chunk_append (recoveredChunk_length s ct) (aeadDecrypt_length ..)

theorem recoveredChunk_congr {s t : Sponge} (h : s.a0 = t.a0) (ct : List Byte) :
    recoveredChunk s ct = recoveredChunk t ct := by
  rw [recoveredChunk, recoveredChunk, rateRead_congr h]

section
variable {s s' : State} (h : SameRate s s')
include h

theorem SameRate.rateRead (n : Nat) : rateRead s'.sponge n = rateRead s.sponge n :=
  rateRead_congr h.rate n

/-- A command is accepted by both engines or refused by both with the same response. -/
theorem SameRate.exec_responses (i : Instr) :
    ∃ t t' r r', exec i s = .next t ∧ exec i s' = .next t' ∧ t.outbox = s.outbox ++ [r] ∧
      t'.outbox = s'.outbox ++ [r'] ∧ (r' = r ∨ r = okResponse i s ∧ r' = okResponse i s') := by
  rcases exec_cases i s with ⟨ha, hi, e⟩ | ⟨ha, hi, e⟩ | ⟨ha, e⟩
  · exact ⟨_, _, _, _, e, exec_ok (h.phase ▸ ha) (h.cfg ▸ hi), congrArg (· ++ _) (effectOf_outbox i s),
      congrArg (· ++ _) (effectOf_outbox i s'), .inr ⟨rfl, rfl⟩⟩
  · exact ⟨_, _, _, _, e, exec_errInput (h.phase ▸ ha) (h.cfg ▸ hi), rfl, rfl,
      .inl (by rw [h.phase, h.v])⟩
  · exact ⟨_, _, _, _, e, exec_errPhase (h.phase ▸ ha), rfl, rfl, .inl (by rw [h.phase, h.v])⟩

/-- A command whose OK responses are the same is answered the same. -/
theorem SameRate.exec_same_response {i : Instr} (hok : okResponse i s' = okResponse i s) :
    ∃ t t' r, exec i s = .next t ∧ exec i s' = .next t' ∧ t.outbox = s.outbox ++ [r] ∧
      t'.outbox = s'.outbox ++ [r] := by
  obtain ⟨t, t', r, r', e, e', ho, ho', rfl | ⟨rfl, rfl⟩⟩ := h.exec_responses i
  · exact ⟨t, t', r', e, e', ho, ho'⟩
  · exact ⟨t, t', _, e, e', ho, hok ▸ ho'⟩

/-- The header and the first 16 output bytes of an accepted SQUEEZE (R78, R106). -/
theorem SameRate.okResponse_squeeze_take (dom : Byte) (len : Word) (payload : List Byte) :
    (okResponse (.squeeze dom len payload) s').take 24 =
      (okResponse (.squeeze dom len payload) s).take 24 := by
  have hlen : (squeeze s.cfg s.sponge len.toNat dom).2.length < 2 ^ 32 := by
    rw [squeeze_length]
    exact len.isLt
  have hq : headerQ1 (squeeze s'.cfg s'.sponge len.toNat dom).2 =
      headerQ1 (squeeze s.cfg s.sponge len.toNat dom).2 :=
    headerQ1_congr hlen (by rw [squeeze_length, squeeze_length])
  simp only [okResponse, effectOf, responsePacket_take, effectSqueeze_phase, effectSqueeze_v,
    effectSqueeze_output, squeeze_take, hq, h.phase, h.v, h.rateRead]

/-- The whole response of an accepted SQUEEZE of at most 16 bytes (R78, R106). -/
theorem SameRate.okResponse_squeeze_short (dom : Byte) {len : Word} (payload : List Byte)
    (hlen : len.toNat ≤ 16) :
    okResponse (.squeeze dom len payload) s' = okResponse (.squeeze dom len payload) s := by
  simp only [okResponse, effectOf, effectSqueeze_phase, effectSqueeze_v, effectSqueeze_output,
    squeeze_short _ _ dom hlen, h.phase, h.v, h.rateRead]

end

/-- Settles O48: every output named is a function of the rate, PHASE, V and the configuration. -/
theorem capacityIsNotOutput : Obligations.CapacityIsNotOutput := by
  intro s s' hrate hphase hv hcfg
  have h : SameRate s s' := ⟨hrate, hphase, hv, hcfg⟩
  refine ⟨fun dom len payload => ?_, fun len => h.exec_same_response ?_,
    fun len payload hlen => h.exec_same_response ?_, fun pt => ?_, fun ct tag => ?_⟩
  · obtain ⟨t, t', r, r', e, e', ho, ho', rfl | ⟨rfl, rfl⟩⟩ :=
      h.exec_responses (.squeeze dom len payload)
    · exact ⟨t, t', r', r', e, e', ho, ho', rfl, fun _ => rfl⟩
    · exact ⟨t, t', _, _, e, e', ho, ho', h.okResponse_squeeze_take dom len payload,
        h.okResponse_squeeze_short dom payload⟩
  · rw [okResponse_encrypt_nil, okResponse_encrypt_nil, h.v, h.rateRead]
  · rw [okResponse_decrypt_short len s hlen, okResponse_decrypt_short len s' hlen, h.rateRead]
  · rw [aeadEncrypt_take, aeadEncrypt_take]
    exact recoveredChunk_congr hrate pt
  · rw [aeadDecrypt_take, aeadDecrypt_take]
    exact recoveredChunk_congr hrate ct

end Sys2Proof.Machine
end

section
/-! SUPPORT. Runs go on for ever; and the keystream of a chunk, which two messages of one session state share
up to the first chunk that differs (R95, R118, R129). -/

namespace Sys2Proof.Machine

/-! ### Runs go on -/

/-- Settles O36: by induction on the steps, each of which goes on. -/
theorem everyRunGoesOn : Obligations.EveryRunGoesOn := by
  intro k
  induction k with
  | zero => exact fun s => ⟨s, run_zero s⟩
  | succ k ih =>
    intro s
    obtain ⟨u, hu, -⟩ := exists_step_kind s
    obtain ⟨t, ht⟩ := ih u
    exact ⟨t, (run_succ hu).trans ht⟩

/-! ### The keystream of a chunk -/

/-- The first chunk of a ciphertext, byte by byte: its keystream is the rate (R87). -/
theorem cipherChunk_getD (s : Sponge) {pt : List Byte} {i : Nat} (hi : i < 16) (hlt : i < pt.length) :
    (cipherChunk s pt).getD i 0 = pt.getD i 0 ^^^ (rateRead s 16).getD i 0 := by
  have hpt : i < (pt.take 16).length := List.length_take ▸ Nat.lt_min.mpr ⟨hi, hlt⟩
  have hle : (pt.take 16).length ≤ 16 := List.length_take_le ..
  have hks : i < (rateRead s (pt.take 16).length).length :=
    rateRead_length s _ ▸ Nat.lt_min.mpr ⟨hpt, hi⟩
  rw [List.getD_eq_getElem?_getD, cipherChunk, recoveredChunk, xorBytes_getElem? hpt hks,
    Option.getD_some]
  simp only [List.getD_eq_getElem?_getD, List.getElem?_take_of_lt hi, rateRead_getElem? s hle hpt,
    rateRead_getElem? s le_rfl hi]

/-- The keystream of chunk `k` is the tag of the `k` chunks before it: both are the rate of the state that
these chunks leave (R87). -/
theorem aeadEncrypt_getD (cfg : Config) {i : Nat} (hi : i < 16) (k : Nat) (s : Sponge) (pt : List Byte)
    (hlt : 16 * k + i < pt.length) :
    (aeadEncrypt cfg s pt).2.1.getD (16 * k + i) 0 =
      pt.getD (16 * k + i) 0 ^^^ (aeadEncrypt cfg s (pt.take (16 * k))).2.2.getD i 0 := by
  have hne : pt ≠ [] := List.length_pos_iff.mp (by omega)
  have hchunk := cipherChunk_length s pt
  induction k generalizing s pt with
  | zero =>
    rw [Nat.mul_zero, Nat.zero_add, List.take_zero, aeadEncrypt_nil, aeadEncrypt_of_ne_nil cfg s hne,
      List.getD_append _ _ _ _ (by omega), cipherChunk_getD s hi (by omega)]
  | succ k ih =>
    have hprefix : pt.take (16 * (k + 1)) ≠ [] := by simp [hne]
    have hfirst : (pt.take (16 * (k + 1))).take 16 = pt.take 16 := by
      rw [List.take_take, Nat.min_eq_left (by omega)]
    have hrest : (pt.take (16 * (k + 1))).drop 16 = (pt.drop 16).take (16 * k) := List.drop_take ..
    have hidx : 16 * (k + 1) + i = 16 + (16 * k + i) := by omega
    have hbyte : pt.getD (16 * (k + 1) + i) 0 = (pt.drop 16).getD (16 * k + i) 0 := by
      simp [List.getD_eq_getElem?_getD, hidx]
    have hlt' : 16 * k + i < (pt.drop 16).length := by
      rw [List.length_drop]
      omega
    rw [aeadEncrypt_of_ne_nil cfg s hne, aeadEncrypt_of_ne_nil cfg s hprefix, hfirst, hrest, hbyte,
      List.getD_append_right _ _ _ _ (by omega), hchunk, Nat.min_eq_left (by omega), hidx,
      Nat.add_sub_cancel_left]
    exact ih _ _ hlt' (List.length_pos_iff.mp (by omega)) (cipherChunk_length ..)

/-- Settles O57: messages that agree on the chunks before byte `j` have the same keystream byte there. -/
theorem nonceReuseLeaks : Obligations.NonceReuseLeaks := by
  intro cfg s p q k j hpq hj hp hq
  have hmod : j % 16 < 16 := Nat.mod_lt j (by decide)
  have hchunks : 16 * (j / 16) ≤ 16 * k := by omega
  have hprefix : p.take (16 * (j / 16)) = q.take (16 * (j / 16)) := by
    simpa [List.take_take, Nat.min_eq_left hchunks] using congrArg (List.take (16 * (j / 16))) hpq
  have hcp := aeadEncrypt_getD cfg hmod (j / 16) s p (by rwa [Nat.div_add_mod])
  have hcq := aeadEncrypt_getD cfg hmod (j / 16) s q (by rwa [Nat.div_add_mod])
  rw [Nat.div_add_mod] at hcp hcq
  refine ⟨?_, fun hlt => ?_⟩
  · rw [hcp, hcq, hprefix, BitVec.xor_comm (q.getD j 0), BitVec.xor_assoc,
      ← BitVec.xor_assoc _ _ (q.getD j 0), BitVec.xor_self, BitVec.zero_xor]
  · rwa [Nat.div_eq_of_lt hlt, Nat.mod_eq_of_lt hlt, Nat.mul_zero, List.take_zero] at hcp

end Sys2Proof.Machine
end
